-- ==== Sys2Proof/Word.lean ====
section
/-! DEFINITION. The three word widths of frodo-core: a byte of `DMEM` (20_memory.md R60), a 16-bit
storage cell of a matrix entry (10_state.md R23), and a 32-bit control register (10_state.md R32). -/

namespace Sys2Proof

/-- One byte of `DMEM` (20_memory.md R60). -/
abbrev Byte := BitVec 8

/-- The 16-bit storage cell of one matrix entry (10_state.md R23). -/
abbrev Cell16 := BitVec 16

/-- A 32-bit control register, or one word of a descriptor (10_state.md R32, 30_encoding.md R90). -/
abbrev Word := BitVec 32

end Sys2Proof
end

