-- ==== Sys2Proof/Syntax.lean ====
section
/-! DEFINITION. The commands of the block: one constructor per row of spec/opcode_table.json, with
the operands of 30_encoding.md R95 and R100. -/

namespace Sys2Proof

/-- A matrix register name, `m0` to `m7` (10_state.md R21). -/
inductive MReg where
  | m0 | m1 | m2 | m3 | m4 | m5 | m6 | m7
deriving DecidableEq, Repr

/-- A command of the block (30_encoding.md R95, R96; operand order of R100). The pseudo-instruction
`SAMPLE md, @addr` (R101) is `samp md addr 2 1 1`. -/
inductive Instr where
  /-- `MUL md, ma, mb` (40_matrix_arithmetic.md R122) -/
  | mul (md ma mb : MReg)
  /-- `MAC md, ma, mb, me` (40_matrix_arithmetic.md R123) -/
  | mac (md ma mb me : MReg)
  /-- `ADD md, ma, mb` (40_matrix_arithmetic.md R124) -/
  | add (md ma mb : MReg)
  /-- `SUB md, ma, mb` (40_matrix_arithmetic.md R125) -/
  | sub (md ma mb : MReg)
  /-- `ENC md, @addr, len` (41_encode_decode.md R142) -/
  | enc (md : MReg) (addr len : Word)
  /-- `DEC @addr, len, ma` (41_encode_decode.md R144) -/
  | dec (addr len : Word) (ma : MReg)
  /-- `PACK @addr, len, ma` (42_pack_unpack.md R162) -/
  | pack (addr len : Word) (ma : MReg)
  /-- `UNPACK md, @addr, len, n1, n2` (42_pack_unpack.md R164) -/
  | unpack (md : MReg) (addr len : Word) (n1 n2 : BitVec 16)
  /-- `GEN md, @addr, len` (43_gen_xof.md R182) -/
  | gen (md : MReg) (addr len : Word)
  /-- `SAMP md, @addr, len, n1, n2` (44_sample.md R213) -/
  | samp (md : MReg) (addr len : Word) (n1 n2 : BitVec 16)
  /-- `CLR md` (45_control.md R226) -/
  | clr (md : MReg)
deriving DecidableEq, Repr

/-- The pseudo-instruction `SAMPLE md, @addr` (30_encoding.md R101, 44_sample.md R216). -/
def Instr.sample (md : MReg) (addr : Word) : Instr := .samp md addr 2 1 1

end Sys2Proof
end

