-- ==== Sys2Proof/Decode.lean ====
section
/-! DEFINITION. The descriptor format of 30_encoding.md R90, the total decoder of R92 stage 1
(R95, R96, R97) and the encoder written from the same tables.

The limits of R98 on `n1` and `n2` depend on the parameter set and are checked by the meanings of
`UNPACK` and `SAMP` as their first check, with the same error (notes/assumptions/12.md): 60_exceptions.md
R238 says that the mutual order of the decode-stage checks is not observable. -/

namespace Sys2Proof

/-- A 128-bit descriptor as its four words (30_encoding.md R90). -/
structure Descriptor where
  w0 : Word
  w1 : Word
  w2 : Word
  w3 : Word
deriving DecidableEq, Repr

/-- The descriptor as one 128-bit value: `W0` is bits [127:96], `W3` bits [31:0] (R90). -/
def Descriptor.toBits (d : Descriptor) : BitVec 128 := d.w0 ++ d.w1 ++ d.w2 ++ d.w3

/-- The four words of a 128-bit value (R90). -/
def Descriptor.ofBits (v : BitVec 128) : Descriptor where
  w0 := v.extractLsb' 96 32
  w1 := v.extractLsb' 64 32
  w2 := v.extractLsb' 32 32
  w3 := v.extractLsb' 0 32

/-- The fields of a descriptor (table of 30_encoding.md R90). -/
structure Fields where
  opcode : BitVec 8
  md : BitVec 3
  ma : BitVec 3
  mb : BitVec 3
  me : BitVec 3
  rsv : BitVec 12
  addr : Word
  len : Word
  n1 : BitVec 16
  n2 : BitVec 16
deriving DecidableEq, Repr

/-- Read every field at the bits R90 gives it. -/
def Descriptor.fields (d : Descriptor) : Fields where
  opcode := d.w0.extractLsb' 24 8
  md := d.w0.extractLsb' 21 3
  ma := d.w0.extractLsb' 18 3
  mb := d.w0.extractLsb' 15 3
  me := d.w0.extractLsb' 12 3
  rsv := d.w0.extractLsb' 0 12
  addr := d.w1
  len := d.w2
  n1 := d.w3.extractLsb' 16 16
  n2 := d.w3.extractLsb' 0 16

/-- Write every field at the bits R90 gives it. -/
def Fields.descriptor (f : Fields) : Descriptor where
  w0 := f.opcode ++ f.md ++ f.ma ++ f.mb ++ f.me ++ f.rsv
  w1 := f.addr
  w2 := f.len
  w3 := f.n1 ++ f.n2

/-- The register a 3-bit field names (30_encoding.md R99: all eight values name a register). -/
def MReg.ofBits (b : BitVec 3) : MReg :=
  match b.toNat with
  | 0 => .m0
  | 1 => .m1
  | 2 => .m2
  | 3 => .m3
  | 4 => .m4
  | 5 => .m5
  | 6 => .m6
  | _ => .m7

/-- The 3-bit field that names a register (R99). -/
def MReg.toBits : MReg → BitVec 3
  | .m0 => 0
  | .m1 => 1
  | .m2 => 2
  | .m3 => 3
  | .m4 => 4
  | .m5 => 5
  | .m6 => 6
  | .m7 => 7

/-- The commands of the opcode map (30_encoding.md R96). -/
inductive Opcode where
  | mul | mac | add | sub | enc | dec | pack | unpack | gen | samp | clr
deriving DecidableEq, Repr

/-- The opcode map (R96). -/
def Opcode.byte : Opcode → BitVec 8
  | .mul => 0x01
  | .mac => 0x02
  | .add => 0x03
  | .sub => 0x04
  | .enc => 0x10
  | .dec => 0x11
  | .pack => 0x12
  | .unpack => 0x13
  | .gen => 0x20
  | .samp => 0x21
  | .clr => 0x30

/-- The command of an opcode byte; every other value is illegal (R96, R97). -/
def Opcode.ofByte (b : BitVec 8) : Option Opcode :=
  match b.toNat with
  | 0x01 => some .mul
  | 0x02 => some .mac
  | 0x03 => some .add
  | 0x04 => some .sub
  | 0x10 => some .enc
  | 0x11 => some .dec
  | 0x12 => some .pack
  | 0x13 => some .unpack
  | 0x20 => some .gen
  | 0x21 => some .samp
  | 0x30 => some .clr
  | _ => none

/-- Which fields a command uses: one row of the table of 30_encoding.md R95. -/
structure Used where
  md : Bool
  ma : Bool
  mb : Bool
  me : Bool
  addr : Bool
  len : Bool
  n1 : Bool
  n2 : Bool
deriving DecidableEq, Repr

/-- The table of R95, row by row, columns md, ma, mb, me, addr, len, n1, n2. -/
def Opcode.used : Opcode → Used
  | .mul => ⟨true, true, true, false, false, false, false, false⟩
  | .mac => ⟨true, true, true, true, false, false, false, false⟩
  | .add => ⟨true, true, true, false, false, false, false, false⟩
  | .sub => ⟨true, true, true, false, false, false, false, false⟩
  | .enc => ⟨true, false, false, false, true, true, false, false⟩
  | .dec => ⟨false, true, false, false, true, true, false, false⟩
  | .pack => ⟨false, true, false, false, true, true, false, false⟩
  | .unpack => ⟨true, false, false, false, true, true, true, true⟩
  | .gen => ⟨true, false, false, false, true, true, false, false⟩
  | .samp => ⟨true, false, false, false, true, true, true, true⟩
  | .clr => ⟨true, false, false, false, false, false, false, false⟩

/-- Every field the command does not use is zero (R95). -/
def Fields.unusedZero (f : Fields) (u : Used) : Bool :=
  (u.md || f.md == 0) && (u.ma || f.ma == 0) && (u.mb || f.mb == 0) && (u.me || f.me == 0) &&
  (u.addr || f.addr == 0) && (u.len || f.len == 0) && (u.n1 || f.n1 == 0) && (u.n2 || f.n2 == 0)

/-- Why the decoder does not accept a descriptor; each ends the command with `IllegalCommand`
(60_exceptions.md R234). -/
inductive DecodeError where
  /-- the opcode is none of the eleven (30_encoding.md R97) -/
  | undefinedOpcode
  /-- the reserved field is not zero (R95) -/
  | nonzeroReserved
  /-- a field the command does not use is not zero (R95) -/
  | nonzeroUnused
deriving DecidableEq, Repr

/-- What the decoder answers: a command, or a rejection by name. -/
inductive Decoded where
  | ok (i : Instr)
  | rejected (e : DecodeError)
deriving DecidableEq, Repr

/-- The command a descriptor's fields stand for, its opcode known (R95, R99). -/
def Opcode.build (o : Opcode) (f : Fields) : Instr :=
  match o with
  | .mul => .mul (.ofBits f.md) (.ofBits f.ma) (.ofBits f.mb)
  | .mac => .mac (.ofBits f.md) (.ofBits f.ma) (.ofBits f.mb) (.ofBits f.me)
  | .add => .add (.ofBits f.md) (.ofBits f.ma) (.ofBits f.mb)
  | .sub => .sub (.ofBits f.md) (.ofBits f.ma) (.ofBits f.mb)
  | .enc => .enc (.ofBits f.md) f.addr f.len
  | .dec => .dec f.addr f.len (.ofBits f.ma)
  | .pack => .pack f.addr f.len (.ofBits f.ma)
  | .unpack => .unpack (.ofBits f.md) f.addr f.len f.n1 f.n2
  | .gen => .gen (.ofBits f.md) f.addr f.len
  | .samp => .samp (.ofBits f.md) f.addr f.len f.n1 f.n2
  | .clr => .clr (.ofBits f.md)

/-- Decode the fields of a descriptor (30_encoding.md R92 stage 1, R95, R97). -/
def Fields.decode (f : Fields) : Decoded :=
  match Opcode.ofByte f.opcode with
  | none => .rejected .undefinedOpcode
  | some o =>
    if f.rsv ≠ 0 then .rejected .nonzeroReserved
    else if f.unusedZero o.used then .ok (o.build f)
    else .rejected .nonzeroUnused

/-- The decoder: total on every descriptor (R92: "every 128-bit value"). -/
def decode (d : Descriptor) : Decoded := d.fields.decode

/-- All fields zero but the opcode. -/
def Opcode.blank (o : Opcode) : Fields :=
  ⟨o.byte, 0, 0, 0, 0, 0, 0, 0, 0, 0⟩

/-- The fields a command sets, all others zero (30_encoding.md R95, R100). -/
def Instr.fields : Instr → Fields
  | .mul md ma mb =>
    { Opcode.mul.blank with md := md.toBits, ma := ma.toBits, mb := mb.toBits }
  | .mac md ma mb me =>
    { Opcode.mac.blank with md := md.toBits, ma := ma.toBits, mb := mb.toBits, me := me.toBits }
  | .add md ma mb =>
    { Opcode.add.blank with md := md.toBits, ma := ma.toBits, mb := mb.toBits }
  | .sub md ma mb =>
    { Opcode.sub.blank with md := md.toBits, ma := ma.toBits, mb := mb.toBits }
  | .enc md addr len => { Opcode.enc.blank with md := md.toBits, addr := addr, len := len }
  | .dec addr len ma => { Opcode.dec.blank with ma := ma.toBits, addr := addr, len := len }
  | .pack addr len ma => { Opcode.pack.blank with ma := ma.toBits, addr := addr, len := len }
  | .unpack md addr len n1 n2 =>
    { Opcode.unpack.blank with md := md.toBits, addr := addr, len := len, n1 := n1, n2 := n2 }
  | .gen md addr len => { Opcode.gen.blank with md := md.toBits, addr := addr, len := len }
  | .samp md addr len n1 n2 =>
    { Opcode.samp.blank with md := md.toBits, addr := addr, len := len, n1 := n1, n2 := n2 }
  | .clr md => { Opcode.clr.blank with md := md.toBits }

/-- The encoder: the descriptor of a command (R90, R95). -/
def encode (i : Instr) : Descriptor := i.fields.descriptor

/-- A descriptor from a number numbered as spec/opcode_table.json numbers a row (R90: `W0` is bits
[127:96], so the opcode is bits [127:120]). When the table gives fewer than 128 bits they are the
descriptor's leading words, and every bit after them is zero (notes/assumptions/9.md). -/
def Descriptor.ofTable (nbits w : Nat) : Descriptor :=
  .ofBits (BitVec.ofNat 128 (w * 2 ^ (128 - nbits)))

/-- The command the decoder reads from an opcode-table word, none where it rejects. -/
def decodeTableWord (nbits w : Nat) : Option Instr :=
  match decode (.ofTable nbits w) with
  | .ok i => some i
  | .rejected _ => none

end Sys2Proof
end

