-- ==== Sys2Proof/Machine/Bits.lean ====
section
/-! DEFINITION. Byte strings as bit streams and the 16-bit byte orders (00_scope.md R12). -/

namespace Sys2Proof.Machine

/-- `⌈bits / 8⌉`: the bytes that hold a stream of `bits` bits. -/
def bytesFor (bits : Nat) : Nat := (bits + 7) / 8

/-- Byte `k` of a byte string (R12). -/
def byteAt (s : List Byte) (k : Nat) : Byte := s.getD k 0

/-- `getbit(s, p)`: bit `p` of the stream, most significant bit of each byte first (R12). -/
def getbit (s : List Byte) (p : Nat) : Bool := (byteAt s (p / 8)).getLsbD (7 - p % 8)

/-- The number whose `w` bits, first bit most significant, are `f p`, `f (p + 1)`, …. -/
def bitsOf (f : Nat → Bool) (p : Nat) : Nat → Nat
  | 0 => 0
  | w + 1 => 2 * bitsOf f p w + (f (p + w)).toNat

/-- `bits_be(s, p, w)`: the `w` bits from position `p`, first bit most significant (R12). -/
def bitsBe (s : List Byte) (p w : Nat) : Nat := bitsOf (getbit s) p w

/-- `putbits(N, f)`: the byte string of length `N` whose bit stream is `f` (R12). -/
def putbits (N : Nat) (f : Nat → Bool) : List Byte :=
  (List.range N).map fun k => BitVec.ofNat 8 (bitsOf f (8 * k) 8)

/-- `be16(v)`: the two bytes of a 16-bit number, high byte first (R12). -/
def be16 (v : Nat) : List Byte := [BitVec.ofNat 8 (v / 256), BitVec.ofNat 8 v]

/-- `from_be16(b0, b1)` (R12). -/
def fromBe16 (b0 b1 : Byte) : Nat := b0.toNat * 256 + b1.toNat

/-- `from_le16(b0, b1)` (R12). -/
def fromLe16 (b0 b1 : Byte) : Nat := b0.toNat + b1.toNat * 256

end Sys2Proof.Machine
end

