-- ==== Sys2Proof/Config.lean ====
section
/-! DEFINITION. What one instance of the block is built for (00_scope.md R6 to R9): the parameter
set `PS`, the memory size `DMEM_SIZE`, and the open per-word function `SAMPLE_FN`. -/

namespace Sys2Proof

/-- Which extendable-output function `GEN` uses (00_scope.md R6, field `xof`). -/
inductive Xof where
  | shake128
  | shake256
deriving DecidableEq, Repr

/-- The fields of the parameter record (00_scope.md R6), before its constraints are checked. -/
structure Params where
  /-- main dimension -/
  n : Nat
  /-- bit-width of the modulus: `q = 2^D` -/
  D : Nat
  /-- encoded plaintext bits per ring element -/
  B : Nat
  /-- row count of the short side matrices -/
  m : Nat
  /-- column count of the short side matrices -/
  nCols : Nat
  /-- total encoded-message bit length -/
  l : Nat
  /-- bit length of the public matrix seed -/
  lenSeedA : Nat
  /-- bit length of the secret/error seed, read by no command -/
  lenSeedSE : Nat
  /-- which extendable-output function `GEN` uses -/
  xof : Xof
deriving DecidableEq, Repr

/-- The constraints of 00_scope.md R6 and R7. -/
abbrev Params.Legal (p : Params) : Prop :=
  (p.n % 8 = 0 ∧ 8 ≤ p.n ∧ p.n ≤ 65528) ∧
  (1 ≤ p.B ∧ p.B ≤ p.D ∧ p.D ≤ 16) ∧
  (1 ≤ p.m ∧ p.m ≤ p.n) ∧
  (1 ≤ p.nCols ∧ p.nCols ≤ p.n) ∧
  (p.l = p.B * p.m * p.nCols ∧ p.l ≤ 2 ^ 32 - 1) ∧
  (p.lenSeedA % 8 = 0 ∧ 8 ≤ p.lenSeedA ∧ p.lenSeedA ≤ 65528) ∧
  p.lenSeedSE ≤ 65535

/-- A parameter set: a record that breaks a constraint cannot be built (00_scope.md R7;
93_implementation_defined.md U5). -/
structure ParamSet extends Params where
  /-- the constraints of R6 and R7 hold -/
  legal : Params.Legal toParams
deriving DecidableEq, Repr

/-- The configuration of one instance (00_scope.md R6, R8). It is not state: no command and no host
action changes it. The configuration function `SAMPLE_FN` is `Config.sampleFn` below; the XOF is
fixed by `ps.xof`. -/
structure Config where
  /-- the parameter set `PS` (R6) -/
  ps : ParamSet
  /-- `DMEM_SIZE` in bytes (R8) -/
  dmemSize : Nat
  /-- the bounds R8 gives `DMEM_SIZE` -/
  dmemSizeLegal : 1 ≤ dmemSize ∧ dmemSize ≤ 2 ^ 32 - 1
deriving DecidableEq, Repr

/-- FREE VALUE (notes/assumptions/4.md): the 16-bit word from which `SAMPLE_FN` takes its value. It
has no body, so nothing can be proved about what it is. -/
opaque Config.sampleWord : Config → BitVec 16 → BitVec 16

/-- The signed number in `[-2^(D-1), 2^(D-1))` whose residue modulo `2^D` is that of `v`. -/
def signedResidue (D : Nat) (v : Nat) : Int := Int.bmod v (2 ^ D)

/-- `SAMPLE_FN` (00_scope.md R8, 44_sample.md R212): total, a function of the word and the
configuration alone, with `-2^(D-1) ≤ SAMPLE_FN w < 2^(D-1)`, and otherwise a FREE VALUE
(notes/assumptions/4.md). Every function with R212's three properties has this form. -/
def Config.sampleFn (c : Config) (w : BitVec 16) : Int :=
  signedResidue c.ps.D (c.sampleWord w).toNat

/-- The document's smallest parameter set FRODO-640 (00_scope.md R9). PRESUMED: `lenSeedSE` is 128,
which R9 gives from general knowledge only (notes/assumptions/2.md, unsafe). -/
def ParamSet.frodo640 : ParamSet where
  n := 640
  D := 15
  B := 2
  m := 8
  nCols := 8
  l := 128
  lenSeedA := 128
  lenSeedSE := 128
  xof := .shake128
  legal := by decide

/-- The instance `State.reset` is built for. DESIGN CHOICE (notes/assumptions/2.md, unsafe):
`DMEM_SIZE` is open, and 0x100000 is the size of the example in 10_state.md R38. -/
def Config.frodo640 : Config where
  ps := .frodo640
  dmemSize := 0x100000
  dmemSizeLegal := by decide

end Sys2Proof
end

