-- ==== Sys2Proof/Machine/State.lean ====
section
/-! DEFINITION. The state of the block (10_state.md R20), the reasons a step can stop, and the state
after reset (10_state.md R46, 70_reset_and_hazards.md R261). -/

namespace Sys2Proof.Machine

/-- The value of a valid matrix register (10_state.md R21): its shape, 16 bits each (R20), and its
entries in 16-bit cells (R23), listed row-major (00_scope.md R15). -/
structure Matrix where
  rows : BitVec 16
  cols : BitVec 16
  entries : List Cell16
deriving DecidableEq, Repr

/-- The eight matrix registers (10_state.md R21). `none` is the spec's valid bit at 0: the register
holds no value, no shape and no entries (R24). -/
structure MatrixRegs where
  m0 : Option Matrix
  m1 : Option Matrix
  m2 : Option Matrix
  m3 : Option Matrix
  m4 : Option Matrix
  m5 : Option Matrix
  m6 : Option Matrix
  m7 : Option Matrix
deriving DecidableEq, Repr

/-- The data memory `DMEM` (20_memory.md R60): the contents at the last reset as one natural number
whose base-256 digits are the bytes (70_reset_and_hazards.md R262: any contents), and the bytes that
differ from them now, addresses rising (notes/assumptions/3.md). -/
structure Memory where
  init : Nat
  cells : List Host.Cell
deriving DecidableEq, Repr

/-- The error codes 1 to 7 of `STATUS.ERR` (60_exceptions.md R231). -/
inductive ErrorCode where
  | invalidSeedLength
  | invalidBufferLength
  | invalidInputLength
  | dimensionMismatch
  | illegalCommand
  | uninitRegister
  | addressRange
deriving DecidableEq, Repr

/-- One move of the host (20_memory.md R68). -/
inductive HostAction where
  /-- `HostWriteByte(a, v)` -/
  | writeByte (a : Nat) (v : Byte)
  /-- `HostReadByte(a)` -/
  | readByte (a : Nat)
  /-- `HostWriteReg(r, w)` -/
  | writeReg (r : Nat) (w : Word)
  /-- `HostReadReg(r)` -/
  | readReg (r : Nat)
  /-- reset (70_reset_and_hazards.md R260). The argument is what `DMEM` holds afterwards, any value
  (R262), in the form of `Memory.init` (notes/assumptions/8.md). -/
  | reset (contents : Nat)
deriving DecidableEq, Repr

/-- What the host's latest move returned (20_memory.md R68). -/
inductive HostReply where
  | nothing
  | byte (v : Byte)
  | word (w : Word)
deriving DecidableEq, Repr

/-- Why a step stops with a fault. No command raises one: the error codes of the block are next
states (60_exceptions.md R236). -/
inductive Fault where
  /-- Raised by the host moves `writeByte` and `readByte` at an offset not below `DMEM_SIZE`, which
  20_memory.md R68 leaves outside the block. Safe: the model stops where the platform decides
  (notes/assumptions/7.md). -/
  | outsideDmem (a : Nat)
deriving DecidableEq, Repr

/-- Why a step refuses. -/
inductive Refusal where
  /-- An instruction whose meaning is not written yet. No arm raises it: every command is modelled.
  Safe: the model stops. -/
  | notModelled (mnemonic : String)
deriving DecidableEq, Repr

/-- The state of the block (10_state.md R20), with the configuration carried beside it and the
model's own two fields for the host's side (notes/assumptions/1.md, 5.md). -/
structure State where
  /-- CONFIGURATION, not state (R20; 00_scope.md R6, R8): no step changes it. -/
  cfg : Config
  /-- the matrix registers `MR[0]` to `MR[7]` (R21 to R29) -/
  mr : MatrixRegs
  /-- the data memory `DMEM` (20_memory.md R60) -/
  dmem : Memory
  /-- `STATUS.ERR` (R34) -/
  err : BitVec 3
  /-- `STATUS.ESTICKY` (R35) -/
  esticky : BitVec 8
  /-- the holding register `CMD1` (R37) -/
  cmd1 : Word
  /-- the holding register `CMD2` (R37) -/
  cmd2 : Word
  /-- the holding register `CMD3` (R37) -/
  cmd3 : Word
  /-- MODEL'S OWN: the host's coming moves, oldest first (notes/assumptions/5.md) -/
  host : List HostAction
  /-- MODEL'S OWN: what the host's latest move returned (notes/assumptions/5.md) -/
  reply : HostReply
deriving DecidableEq, Repr

/-- The eight matrix registers, all invalid (10_state.md R29). -/
def MatrixRegs.allInvalid : MatrixRegs :=
  ⟨none, none, none, none, none, none, none, none⟩

/-- The state right after a reset (10_state.md R46, 70_reset_and_hazards.md R261) of the instance `c`,
with `contents` as the unspecified contents of `DMEM` (R262). -/
def State.afterReset (c : Config) (contents : Nat) : State where
  cfg := c
  mr := .allInvalid
  dmem := ⟨contents, []⟩
  err := 0
  esticky := 0
  cmd1 := 0
  cmd2 := 0
  cmd3 := 0
  host := []
  reply := .nothing

/-- The machine right after reset. DESIGN CHOICE (notes/assumptions/2.md and 3.md, unsafe): the
instance is FRODO-640 with 0x100000 bytes of `DMEM`, and of the contents R262 allows it takes zeros;
claims range over every instance and every contents instead. -/
def State.reset : State := .afterReset .frodo640 0

end Sys2Proof.Machine
end

