-- ==== Sys2Proof/Machine/Flags.lean ====
section
/-! DEFINITION. `STATUS`, the only status the block keeps (10_state.md R31, R33 to R35). There are no
arithmetic flags. -/

namespace Sys2Proof.Machine

/-- The number of an error code (60_exceptions.md R231). -/
def ErrorCode.code : ErrorCode → BitVec 3
  | .invalidSeedLength => 1
  | .invalidBufferLength => 2
  | .invalidInputLength => 3
  | .dimensionMismatch => 4
  | .illegalCommand => 5
  | .uninitRegister => 6
  | .addressRange => 7

/-- `STATUS.ESTICKY` after an error completion with code `k`: `ESTICKY OR 2^k` (60_exceptions.md
R236). -/
def stickyAfter (old : BitVec 8) (e : ErrorCode) : BitVec 8 := old ||| ((1 : BitVec 8) <<< e.code.toNat)

/-- Bit 0 of `ESTICKY`, bit 8 of `STATUS`, always reads 0 (10_state.md R33). -/
def stickyRead (v : BitVec 8) : BitVec 8 := v &&& 0xFE

/-- The register `STATUS`: bits [2:0] `ERR`, [7:3] zero, [15:8] `ESTICKY`, [31:16] zero (10_state.md
R33). -/
def statusWord (err : BitVec 3) (esticky : BitVec 8) : Word :=
  (0 : BitVec 16) ++ stickyRead esticky ++ (0 : BitVec 5) ++ err

end Sys2Proof.Machine
end

