-- ==== Sys2Proof/Machine/Ops.lean ====
section
/-! DEFINITION. The named operations over matrix registers, memory and `STATUS`, and the two ways a
command ends: error completion (60_exceptions.md R236, the block's taking of an exception) and normal
completion. There is no return from an exception (R237): nothing is saved and control goes nowhere. -/

namespace Sys2Proof.Machine

/-- Read matrix register `r`; `none` when it is not valid (00_scope.md R13, 10_state.md R24). -/
def MatrixRegs.get (m : MatrixRegs) : MReg → Option Matrix
  | .m0 => m.m0
  | .m1 => m.m1
  | .m2 => m.m2
  | .m3 => m.m3
  | .m4 => m.m4
  | .m5 => m.m5
  | .m6 => m.m6
  | .m7 => m.m7

/-- Replace the whole of matrix register `r` (10_state.md R25, R28). -/
def MatrixRegs.set (m : MatrixRegs) (r : MReg) (v : Option Matrix) : MatrixRegs :=
  match r with
  | .m0 => { m with m0 := v }
  | .m1 => { m with m1 := v }
  | .m2 => { m with m2 := v }
  | .m3 => { m with m3 := v }
  | .m4 => { m with m4 := v }
  | .m5 => { m with m5 := v }
  | .m6 => { m with m6 := v }
  | .m7 => { m with m7 := v }

/-- What an unlisted address reads as: the byte the memory held at the last reset, digit `a` to base
256 of `init` (70_reset_and_hazards.md R262). -/
def Memory.unlisted (m : Memory) (a : Nat) : Byte := BitVec.ofNat 8 (m.init >>> (8 * a))

/-- The listed byte at an address. -/
def lookupCell (a : Nat) : List Host.Cell → Option Byte
  | [] => none
  | c :: cs => if c.1 = a then some c.2 else lookupCell a cs

/-- List a byte at an address, in rising order of addresses, in place of what was listed there. -/
def insertCell (a : Nat) (v : Byte) : List Host.Cell → List Host.Cell
  | [] => [(a, v)]
  | c :: cs =>
    if c.1 < a then c :: insertCell a v cs
    else if c.1 = a then (a, v) :: cs
    else (a, v) :: c :: cs

/-- Unlist an address. -/
def eraseCell (a : Nat) : List Host.Cell → List Host.Cell
  | [] => []
  | c :: cs => if c.1 = a then cs else c :: eraseCell a cs

/-- `DMEM[a]` (20_memory.md R60). -/
def Memory.read (m : Memory) (a : Nat) : Byte := (lookupCell a m.cells).getD (m.unlisted a)

/-- `DMEM[a] <- v` (20_memory.md R64, R68), keeping the canonical form. -/
def Memory.write (m : Memory) (a : Nat) (v : Byte) : Memory :=
  { m with cells := if v = m.unlisted a then eraseCell a m.cells else insertCell a v m.cells }

/-- `MemRead(addr, N)` (20_memory.md R64). -/
def Memory.readBytes (m : Memory) (addr N : Nat) : List Byte :=
  (List.range N).map fun k => m.read (addr + k)

/-- `MemWrite(addr, N, s)` with `N` the length of `s` (20_memory.md R64). -/
def Memory.writeBytes (m : Memory) (addr : Nat) : List Byte → Memory
  | [] => m
  | b :: bs => (m.write addr b).writeBytes (addr + 1) bs

/-- The addresses of a list of cells rise strictly. -/
def cellsRising : List Host.Cell → Bool
  | [] => true
  | c :: cs => cs.all (fun d => decide (c.1 < d.1)) && cellsRising cs

/-- The canonical form of memory: addresses strictly rising, no entry equal to what its address reads
as when unlisted. -/
def Memory.wf (m : Memory) : Bool :=
  cellsRising m.cells && m.cells.all fun c => c.2 != m.unlisted c.1

/-- `MR[i]` (00_scope.md R13). -/
def State.matrixAt (s : State) (r : MReg) : Option Matrix := s.mr.get r

/-- `MR[d] <- (r, c, e)`: valid, with that shape and those entries (10_state.md R25). -/
def State.writeMatrix (s : State) (d : MReg) (M : Matrix) : State :=
  { s with mr := s.mr.set d (some M) }

/-- `MR[d].valid <- 0` (45_control.md R226). -/
def State.invalidate (s : State) (d : MReg) : State := { s with mr := s.mr.set d none }

/-- `MemWrite` on the state's memory (20_memory.md R64). -/
def State.storeBytes (s : State) (addr : Nat) (bs : List Byte) : State :=
  { s with dmem := s.dmem.writeBytes addr bs }

/-- TAKING AN EXCEPTION: `raise E`, the error completion of a command (60_exceptions.md R236). It
writes `STATUS.ERR` and `STATUS.ESTICKY` and nothing else; nothing is saved and control goes nowhere
(R230, R232). -/
def State.raise (s : State) (e : ErrorCode) : State :=
  { s with err := e.code, esticky := stickyAfter s.esticky e }

/-- Normal completion: `STATUS.ERR <- 0`, `ESTICKY` as it was (10_state.md R34, R35). -/
def State.complete (s : State) : State := { s with err := 0 }

/-- The one write a command performs when every check passed (00_scope.md R13, 30_encoding.md R93). -/
inductive Effect where
  /-- one matrix register becomes valid with this value -/
  | matrix (d : MReg) (M : Matrix)
  /-- one byte range of `DMEM` is written -/
  | bytes (addr : Nat) (bs : List Byte)
  /-- one matrix register becomes invalid -/
  | invalidate (d : MReg)
deriving DecidableEq, Repr

/-- Perform the write. -/
def State.apply (s : State) : Effect → State
  | .matrix d M => s.writeMatrix d M
  | .bytes addr bs => s.storeBytes addr bs
  | .invalidate d => s.invalidate d

/-- The end of a command (30_encoding.md R92): the first failing check raises its error and nothing
else happens; when all passed, the one write is performed and `STATUS.ERR` becomes 0. -/
def State.finish (s : State) : Except ErrorCode Effect → Host.Outcome State Fault Refusal
  | .error e => .next (s.raise e)
  | .ok w => .next (s.apply w).complete

end Sys2Proof.Machine
end

