-- ==== Sys2Proof/WellFormed.lean ====
section
/-! DEFINITION. The checks on a command that its Lean type does not already make. Register fields,
addresses, lengths and dimensions have the widths of 30_encoding.md R90 by their types; what is left
is the dimension limits of R98, which depend on the parameter set. -/

namespace Sys2Proof

/-- A dimension field within the capacity of a matrix register (30_encoding.md R98). -/
def dimensionOk (ps : ParamSet) (d : BitVec 16) : Bool := 1 ≤ d.toNat && d.toNat ≤ ps.n

/-- The command passes the decode-stage checks of 30_encoding.md R98: `n1` and `n2` in `[1, n]` for
`UNPACK` and `SAMP`, nothing for the others. -/
def Instr.wellFormed (ps : ParamSet) : Instr → Bool
  | .mul _ _ _ => true
  | .mac _ _ _ _ => true
  | .add _ _ _ => true
  | .sub _ _ _ => true
  | .enc _ _ _ => true
  | .dec _ _ _ => true
  | .pack _ _ _ => true
  | .unpack _ _ _ n1 n2 => dimensionOk ps n1 && dimensionOk ps n2
  | .gen _ _ _ => true
  | .samp _ _ _ n1 n2 => dimensionOk ps n1 && dimensionOk ps n2
  | .clr _ => true

end Sys2Proof
end

