-- ==== Sys2Proof/Machine/Operands.lean ====
section
/-! DEFINITION. The operand forms of the commands and the checks on them, in the order of
30_encoding.md R92 and 60_exceptions.md R238: a source register, a pair of dimensions, a byte buffer. -/

namespace Sys2Proof.Machine

/-- `check c else E` (00_scope.md R13). -/
def check (c : Bool) (e : ErrorCode) : Except ErrorCode Unit :=
  if c then .ok () else .error e

/-- A source register: its value, or `UninitRegister` (60_exceptions.md R233). -/
def State.source (s : State) (r : MReg) : Except ErrorCode Matrix :=
  match s.matrixAt r with
  | some M => .ok M
  | none => .error .uninitRegister

/-- The dimension fields of `UNPACK` and `SAMP` (30_encoding.md R98): a decode-stage check. -/
def State.checkDims (s : State) (n1 n2 : BitVec 16) : Except ErrorCode Unit :=
  check (dimensionOk s.cfg.ps n1 && dimensionOk s.cfg.ps n2) .illegalCommand

/-- The range check of a byte buffer (20_memory.md R65), the sum in unbounded integers. -/
def State.checkRange (s : State) (addr len : Word) : Except ErrorCode Unit :=
  check (addr.toNat + len.toNat ≤ s.cfg.dmemSize) .addressRange

/-- `LK = ⌈(B · m · n_cols) / 8⌉` (41_encode_decode.md R140). -/
def plainBytes (ps : ParamSet) : Nat := bytesFor (ps.B * ps.m * ps.nCols)

/-- `LP = ⌈(D · r · c) / 8⌉` (42_pack_unpack.md R160). -/
def packedBytes (ps : ParamSet) (r c : Nat) : Nat := bytesFor (ps.D * r * c)

/-- `LS = len_seedA / 8` (43_gen_xof.md R181). -/
def seedBytes (ps : ParamSet) : Nat := ps.lenSeedA / 8

/-- `LB = 2 · n1 · n2` (44_sample.md R211). -/
def sampleBytes (n1 n2 : Nat) : Nat := 2 * n1 * n2

/-- The bytes of a buffer a command reads (20_memory.md R64). -/
def State.input (s : State) (addr : Word) (N : Nat) : List Byte := s.dmem.readBytes addr.toNat N

end Sys2Proof.Machine
end

