-- ==== Sys2Proof/Machine/Ring.lean ====
section
/-! DEFINITION. Matrices over the ring `Z/2^D` (00_scope.md R14, R15; 40_matrix_arithmetic.md R120,
R121). -/

namespace Sys2Proof.Machine

/-- Entry `(i, j)` of a matrix: row-major index `i · cols + j` (00_scope.md R15). -/
def Matrix.entry (M : Matrix) (i j : Nat) : Cell16 := M.entries.getD (i * M.cols.toNat + j) 0

/-- The `r` by `c` matrix whose entry `(i, j)` is `f i j`. -/
def Matrix.tabulate (r c : Nat) (f : Nat → Nat → Cell16) : Matrix where
  rows := BitVec.ofNat 16 r
  cols := BitVec.ofNat 16 c
  entries := (List.range (r * c)).map fun k => f (k / c) (k % c)

/-- The ring element of an integer: `x mod 2^D` in a 16-bit cell (R14; 40_matrix_arithmetic.md R120,
R121: computed over unbounded integers and reduced once). -/
def reduce (D : Nat) (x : Int) : Cell16 := BitVec.ofNat 16 (x % (2 ^ D : Nat)).toNat

/-- The magnitude of a ring element: `min(a, 2^D - a)` (00_scope.md R14). -/
def magnitude (D : Nat) (a : Cell16) : Nat := min a.toNat (2 ^ D - a.toNat)

/-- `Σ_{x < k} A[i][x] · B[x][j]`, unreduced (40_matrix_arithmetic.md R122). -/
def dot (A B : Matrix) (i j : Nat) : Nat → Nat
  | 0 => 0
  | k + 1 => dot A B i j k + (A.entry i k).toNat * (B.entry k j).toNat

/-- `A·B` mod `2^D` (R122). -/
def matMul (D : Nat) (A B : Matrix) : Matrix :=
  .tabulate A.rows.toNat B.cols.toNat fun i j => reduce D (dot A B i j A.cols.toNat)

/-- `A·B + E` mod `2^D` (R123). -/
def matMulAdd (D : Nat) (A B E : Matrix) : Matrix :=
  .tabulate A.rows.toNat B.cols.toNat fun i j =>
    reduce D (dot A B i j A.cols.toNat + (E.entry i j).toNat : Nat)

/-- `A + B` mod `2^D` (R124). -/
def matAdd (D : Nat) (A B : Matrix) : Matrix :=
  .tabulate A.rows.toNat A.cols.toNat fun i j =>
    reduce D ((A.entry i j).toNat + (B.entry i j).toNat : Nat)

/-- `A - B` mod `2^D` (R125). -/
def matSub (D : Nat) (A B : Matrix) : Matrix :=
  .tabulate A.rows.toNat A.cols.toNat fun i j =>
    reduce D ((A.entry i j).toNat - (B.entry i j).toNat : Int)

end Sys2Proof.Machine
end

