-- ==== Sys2Proof/Machine/Arithmetic.lean ====
section
/-! DEFINITION. Matrix arithmetic over the ring: MUL, MAC, ADD, SUB (40_matrix_arithmetic.md). -/

namespace Sys2Proof.Machine

/-- What `MUL` writes, or the first check that fails (R122). -/
def mulEffect (md ma mb : MReg) (s : State) : Except ErrorCode Effect := do
  let A ← s.source ma
  let B ← s.source mb
  check (A.cols = B.rows) .dimensionMismatch
  return .matrix md (matMul s.cfg.ps.D A B)

/-- `MUL md, ma, mb` (R122). -/
def execMul (md ma mb : MReg) (s : State) : Host.Outcome State Fault Refusal :=
  s.finish (mulEffect md ma mb s)

/-- What `MAC` writes, or the first check that fails (R123). -/
def macEffect (md ma mb me : MReg) (s : State) : Except ErrorCode Effect := do
  let A ← s.source ma
  let B ← s.source mb
  let E ← s.source me
  check (A.cols = B.rows && E.rows = A.rows && E.cols = B.cols) .dimensionMismatch
  return .matrix md (matMulAdd s.cfg.ps.D A B E)

/-- `MAC md, ma, mb, me` (R123). -/
def execMac (md ma mb me : MReg) (s : State) : Host.Outcome State Fault Refusal :=
  s.finish (macEffect md ma mb me s)

/-- What `ADD` writes, or the first check that fails (R124). -/
def addEffect (md ma mb : MReg) (s : State) : Except ErrorCode Effect := do
  let A ← s.source ma
  let B ← s.source mb
  check (A.rows = B.rows && A.cols = B.cols) .dimensionMismatch
  return .matrix md (matAdd s.cfg.ps.D A B)

/-- `ADD md, ma, mb` (R124). -/
def execAdd (md ma mb : MReg) (s : State) : Host.Outcome State Fault Refusal :=
  s.finish (addEffect md ma mb s)

/-- What `SUB` writes, or the first check that fails (R125). -/
def subEffect (md ma mb : MReg) (s : State) : Except ErrorCode Effect := do
  let A ← s.source ma
  let B ← s.source mb
  check (A.rows = B.rows && A.cols = B.cols) .dimensionMismatch
  return .matrix md (matSub s.cfg.ps.D A B)

/-- `SUB md, ma, mb` (R125): `ma` is the minuend. -/
def execSub (md ma mb : MReg) (s : State) : Host.Outcome State Fault Refusal :=
  s.finish (subEffect md ma mb s)

end Sys2Proof.Machine
end

