-- ==== Sys2Proof/Machine/Control.lean ====
section
/-! DEFINITION. The housekeeping command: CLR (45_control.md). -/

namespace Sys2Proof.Machine

/-- `CLR md` (R226): it succeeds on a register that is already invalid. -/
def execClr (md : MReg) (s : State) : Host.Outcome State Fault Refusal :=
  s.finish (.ok (.invalidate md))

end Sys2Proof.Machine
end

