-- ==== Sys2Proof/Machine/EncodeDecode.lean ====
section
/-! DEFINITION. The plaintext bit encoder and decoder: ENC, DEC (41_encode_decode.md). -/

namespace Sys2Proof.Machine

/-- The matrix `ENC` builds from the plaintext (R142): the cell's `B`-bit value, scaled by
`2^(D-B)`. -/
def encodeMatrix (ps : ParamSet) (k : List Byte) : Matrix :=
  .tabulate ps.m ps.nCols fun i j =>
    BitVec.ofNat 16 (bitsBe k (ps.B * (i * ps.nCols + j)) ps.B * 2 ^ (ps.D - ps.B))

/-- `dec(e)`: round half up to the nearest multiple of `2^(D-B)`, modulo `2^B` (R143). -/
def decodeEntry (ps : ParamSet) (e : Nat) : Nat :=
  (e * 2 ^ ps.B + 2 ^ (ps.D - 1)) / 2 ^ ps.D % 2 ^ ps.B

/-- Bit `p` of the stream `DEC` writes (R144): the cell's most significant bit first, zero past the
last cell. -/
def decodedBit (ps : ParamSet) (M : Matrix) (p : Nat) : Bool :=
  if p < ps.B * ps.m * ps.nCols then
    (decodeEntry ps (M.entry (p / ps.B / ps.nCols) (p / ps.B % ps.nCols)).toNat).testBit
      (ps.B - 1 - p % ps.B)
  else false

/-- The bytes `DEC` writes (R144). -/
def decodeMatrix (ps : ParamSet) (M : Matrix) : List Byte :=
  putbits (plainBytes ps) (decodedBit ps M)

/-- What `ENC` writes, or the first check that fails (R142). -/
def encEffect (md : MReg) (addr len : Word) (s : State) : Except ErrorCode Effect := do
  let LK := plainBytes s.cfg.ps
  check (len.toNat = LK) .invalidInputLength
  s.checkRange addr len
  return .matrix md (encodeMatrix s.cfg.ps (s.input addr LK))

/-- `ENC md, @addr, len` (R142). -/
def execEnc (md : MReg) (addr len : Word) (s : State) : Host.Outcome State Fault Refusal :=
  s.finish (encEffect md addr len s)

/-- What `DEC` writes, or the first check that fails (R144). -/
def decEffect (addr len : Word) (ma : MReg) (s : State) : Except ErrorCode Effect := do
  let M ← s.source ma
  check (M.rows.toNat = s.cfg.ps.m && M.cols.toNat = s.cfg.ps.nCols) .dimensionMismatch
  check (len.toNat = plainBytes s.cfg.ps) .invalidInputLength
  s.checkRange addr len
  return .bytes addr.toNat (decodeMatrix s.cfg.ps M)

/-- `DEC @addr, len, ma` (R144). -/
def execDec (addr len : Word) (ma : MReg) (s : State) : Host.Outcome State Fault Refusal :=
  s.finish (decEffect addr len ma s)

end Sys2Proof.Machine
end

