-- ==== Sys2Proof/Machine/Xof.lean ====
section
/-! DEFINITION. The extendable-output functions SHAKE128 and SHAKE256 (43_gen_xof.md R190 to R192,
from general knowledge there: notes/assumptions/10.md). The 200 state bytes of R191 are kept as their
25 lanes (R192); lane `A[x][y]` stands at index `x + 5y`. -/

namespace Sys2Proof.Machine

/-- One lane of the sponge state (R192). -/
abbrev Lane := BitVec 64

/-- Lane `A[x][y]` (R192). -/
def laneAt (s : List Lane) (x y : Nat) : Lane := s.getD (x + 5 * y) 0

/-- The list of lanes whose lane `A[x][y]` is `f x y`. -/
def lanesOf (f : Nat → Nat → Lane) : List Lane :=
  (List.range 25).map fun k => f (k % 5) (k / 5)

/-- Row `x` of the rule's table of rotation offsets: `ROT[x][0]` to `ROT[x][4]` (R192). -/
def rotRow : Nat → List Nat
  | 0 => [0, 36, 3, 41, 18]
  | 1 => [1, 44, 10, 45, 2]
  | 2 => [62, 6, 43, 15, 61]
  | 3 => [28, 55, 25, 21, 56]
  | 4 => [27, 20, 39, 8, 14]
  | _ => []

/-- The rotation offset `ROT[x][y]` (R192). -/
def rotOffset (x y : Nat) : Nat := (rotRow x).getD y 0

/-- The round constant `RC[t]` of round `t` (R192); there are the rounds 0 to 23. -/
def roundConstant : Nat → Lane
  | 0 => 0x0000000000000001
  | 1 => 0x0000000000008082
  | 2 => 0x800000000000808A
  | 3 => 0x8000000080008000
  | 4 => 0x000000000000808B
  | 5 => 0x0000000080000001
  | 6 => 0x8000000080008081
  | 7 => 0x8000000000008009
  | 8 => 0x000000000000008A
  | 9 => 0x0000000000000088
  | 10 => 0x0000000080008009
  | 11 => 0x000000008000000A
  | 12 => 0x000000008000808B
  | 13 => 0x800000000000008B
  | 14 => 0x8000000000008089
  | 15 => 0x8000000000008003
  | 16 => 0x8000000000008002
  | 17 => 0x8000000000000080
  | 18 => 0x000000000000800A
  | 19 => 0x800000008000000A
  | 20 => 0x8000000080008081
  | 21 => 0x8000000000008080
  | 22 => 0x0000000080000001
  | 23 => 0x8000000080008008
  | _ => 0

/-- Step θ: the column parities `C[x]` (R192). -/
def thetaParity (s : List Lane) : List Lane :=
  (List.range 5).map fun x =>
    laneAt s x 0 ^^^ laneAt s x 1 ^^^ laneAt s x 2 ^^^ laneAt s x 3 ^^^ laneAt s x 4

/-- Step θ: `A[x][y] XOR Dl[x]` with `Dl[x] = C[(x-1) mod 5] XOR rotl(C[(x+1) mod 5], 1)` (R192). -/
def theta (s : List Lane) : List Lane :=
  let c := thetaParity s
  lanesOf fun x y =>
    laneAt s x y ^^^ (c.getD ((x + 4) % 5) 0 ^^^ (c.getD ((x + 1) % 5) 0).rotateLeft 1)

/-- Steps ρ and π: `Bq[y][(2x + 3y) mod 5] = rotl(A[x][y], ROT[x][y])` (R192). The target lane
`Bq[u][v]` comes from the source with `y = u` and `2x + 3y = v` modulo 5, that is `x = u + 3v`. -/
def rhoPi (s : List Lane) : List Lane :=
  lanesOf fun u v =>
    let x := (u + 3 * v) % 5
    (laneAt s x u).rotateLeft (rotOffset x u)

/-- Step χ (R192). -/
def chi (s : List Lane) : List Lane :=
  lanesOf fun x y =>
    laneAt s x y ^^^ (~~~ (laneAt s ((x + 1) % 5) y) &&& laneAt s ((x + 2) % 5) y)

/-- Step ι of round `t`: `RC[t]` into lane `A[0][0]` (R192). -/
def iota (t : Nat) (s : List Lane) : List Lane :=
  lanesOf fun x y => if x = 0 ∧ y = 0 then laneAt s 0 0 ^^^ roundConstant t else laneAt s x y

/-- Round `t` of the permutation (R192). -/
def keccakRound (s : List Lane) (t : Nat) : List Lane := iota t (chi (rhoPi (theta s)))

/-- The permutation Keccak-f[1600]: the rounds 0 to 23 in order (R192). -/
def keccakF (s : List Lane) : List Lane := (List.range 24).foldl keccakRound s

/-- The lane that 8 bytes hold, least significant byte first (R192). -/
def laneOfBytes (b : List Byte) : Lane :=
  BitVec.ofNat 64 (b.foldr (fun x acc => x.toNat + 256 * acc) 0)

/-- The 8 bytes of a lane, least significant byte first (R192). -/
def bytesOfLane (v : Lane) : List Byte :=
  (List.range 8).map fun k => BitVec.ofNat 8 (v.toNat / 2 ^ (8 * k))

/-- The bytes `S[0]`, …, `S[r-1]` of the sponge state (R191). -/
def rateBytes (r : Nat) (s : List Lane) : List Byte := (s.flatMap bytesOfLane).take r

/-- The rate in bytes (R190). -/
def xofRate : Xof → Nat
  | .shake128 => 168
  | .shake256 => 136

/-- The padded message (R191): the suffix byte `0x1F`, zeros up to a multiple of the rate, and `0x80`
XORed into the last byte. -/
def padMessage (r : Nat) (msg : List Byte) : List Byte :=
  let zeros := r - 1 - msg.length % r
  if zeros = 0 then msg ++ [0x9F]
  else msg ++ 0x1F :: List.replicate (zeros - 1) 0 ++ [0x80]

/-- Block `k` of a padded message, as lanes (R191, R192). -/
def blockLane (p : List Byte) (r k j : Nat) : Lane :=
  if 8 * j < r then laneOfBytes ((p.drop (r * k + 8 * j)).take 8) else 0

/-- Absorb one block: XOR it into the first `r` bytes, then permute (R191). -/
def absorbBlock (r : Nat) (p : List Byte) (s : List Lane) (k : Nat) : List Lane :=
  keccakF (lanesOf fun x y => laneAt s x y ^^^ blockLane p r k (x + 5 * y))

/-- Absorb every block of the padded message into the all-zero state (R191). -/
def absorb (r : Nat) (msg : List Byte) : List Lane :=
  let p := padMessage r msg
  (List.range (p.length / r)).foldl (absorbBlock r p) (List.replicate 25 0)

/-- Squeeze `k` blocks of `r` bytes, permuting between them (R191). -/
def squeeze (r : Nat) : Nat → List Lane → List Byte
  | 0, _ => []
  | k + 1, s => rateBytes r s ++ squeeze r k (keccakF s)

/-- `XOF(msg, L)` (R189 to R191): the first `L` bytes of as many squeezed blocks as `L` bytes take. -/
def xofBytes (x : Xof) (msg : List Byte) (L : Nat) : List Byte :=
  let r := xofRate x
  (squeeze r ((L + r - 1) / r) (absorb r msg)).take L

end Sys2Proof.Machine
end

