-- ==== Sys2Proof/Machine/Generate.lean ====
section
/-! DEFINITION. The pseudorandom matrix generator: GEN (43_gen_xof.md). -/

namespace Sys2Proof.Machine

/-- The XOF output of row `i`: `XOF(be16(i) ‖ seed, 2·n)`, a fresh computation for each row (R182,
R183). -/
def rowOutput (ps : ParamSet) (seed : List Byte) (i : Nat) : List Byte :=
  xofBytes ps.xof (be16 i ++ seed) (2 * ps.n)

/-- Entry `j` of a row: the consecutive byte pair `2j`, `2j+1` of the row's output, big-endian, masked
to `D` bits (R182, R184). -/
def rowEntry (D : Nat) (out : List Byte) (j : Nat) : Cell16 :=
  BitVec.ofNat 16 (fromBe16 (byteAt out (2 * j)) (byteAt out (2 * j + 1)) % 2 ^ D)

/-- The `n` by `n` public matrix of a seed (R182). -/
def genMatrix (ps : ParamSet) (seed : List Byte) : Matrix where
  rows := BitVec.ofNat 16 ps.n
  cols := BitVec.ofNat 16 ps.n
  entries := (List.range ps.n).flatMap fun i =>
    let out := rowOutput ps seed i
    (List.range ps.n).map (rowEntry ps.D out)

/-- What `GEN` writes, or the first check that fails (R182). -/
def genEffect (md : MReg) (addr len : Word) (s : State) : Except ErrorCode Effect := do
  let LS := seedBytes s.cfg.ps
  check (len.toNat = LS) .invalidSeedLength
  s.checkRange addr len
  return .matrix md (genMatrix s.cfg.ps (s.input addr LS))

/-- `GEN md, @addr, len` (R182). -/
def execGen (md : MReg) (addr len : Word) (s : State) : Host.Outcome State Fault Refusal :=
  s.finish (genEffect md addr len s)

end Sys2Proof.Machine
end

