-- ==== Sys2Proof/Machine/PackUnpack.lean ====
section
/-! DEFINITION. The matrix packer and unpacker: PACK, UNPACK (42_pack_unpack.md). -/

namespace Sys2Proof.Machine

/-- Bit `p` of the stream `PACK` writes (R162): the `D` bits of entry `p div D`, most significant
first, zero past the last entry. -/
def packedBit (D : Nat) (M : Matrix) (p : Nat) : Bool :=
  if p < D * M.rows.toNat * M.cols.toNat then
    (M.entry (p / D / M.cols.toNat) (p / D % M.cols.toNat)).toNat.testBit (D - 1 - p % D)
  else false

/-- The bytes `PACK` writes (R162). -/
def packMatrix (ps : ParamSet) (M : Matrix) : List Byte :=
  putbits (packedBytes ps M.rows.toNat M.cols.toNat) (packedBit ps.D M)

/-- The matrix `UNPACK` builds from a packed byte string (R164). -/
def unpackMatrix (D r c : Nat) (s : List Byte) : Matrix :=
  .tabulate r c fun i j => BitVec.ofNat 16 (bitsBe s (D * (i * c + j)) D)

/-- What `PACK` writes, or the first check that fails (R162). -/
def packEffect (addr len : Word) (ma : MReg) (s : State) : Except ErrorCode Effect := do
  let M ← s.source ma
  check (packedBytes s.cfg.ps M.rows.toNat M.cols.toNat ≤ len.toNat) .invalidBufferLength
  s.checkRange addr len
  return .bytes addr.toNat (packMatrix s.cfg.ps M)

/-- `PACK @addr, len, ma` (R162). -/
def execPack (addr len : Word) (ma : MReg) (s : State) : Host.Outcome State Fault Refusal :=
  s.finish (packEffect addr len ma s)

/-- What `UNPACK` writes, or the first check that fails (R164). -/
def unpackEffect (md : MReg) (addr len : Word) (n1 n2 : BitVec 16) (s : State) :
    Except ErrorCode Effect := do
  s.checkDims n1 n2
  let LP := packedBytes s.cfg.ps n1.toNat n2.toNat
  check (LP ≤ len.toNat) .invalidBufferLength
  s.checkRange addr len
  return .matrix md (unpackMatrix s.cfg.ps.D n1.toNat n2.toNat (s.input addr LP))

/-- `UNPACK md, @addr, len, n1, n2` (R164). -/
def execUnpack (md : MReg) (addr len : Word) (n1 n2 : BitVec 16) (s : State) :
    Host.Outcome State Fault Refusal :=
  s.finish (unpackEffect md addr len n1 n2 s)

end Sys2Proof.Machine
end

