-- ==== Sys2Proof/Machine/Sample.lean ====
section
/-! DEFINITION. The error sampler: SAMP (44_sample.md). The per-word function `SAMPLE_FN` is open
(R212) and a free value of Config (notes/assumptions/4.md). -/

namespace Sys2Proof.Machine

/-- The input word of entry `k`: `buf[2k] + 256 · buf[2k+1]` (R211, R217: all 16 bits). -/
def sampleWordAt (buf : List Byte) (k : Nat) : BitVec 16 :=
  BitVec.ofNat 16 (fromLe16 (byteAt buf (2 * k)) (byteAt buf (2 * k + 1)))

/-- The `r` by `c` matrix of samples, by the per-word function `f`; a negative sample is stored as its
residue (R213, R218). -/
def sampleMatrix (f : BitVec 16 → Int) (D r c : Nat) (buf : List Byte) : Matrix :=
  .tabulate r c fun i j => reduce D (f (sampleWordAt buf (i * c + j)))

/-- What `SAMP` writes, or the first check that fails (R213). -/
def sampEffect (md : MReg) (addr len : Word) (n1 n2 : BitVec 16) (s : State) :
    Except ErrorCode Effect := do
  s.checkDims n1 n2
  let LB := sampleBytes n1.toNat n2.toNat
  check (len.toNat = LB) .invalidBufferLength
  s.checkRange addr len
  return .matrix md
    (sampleMatrix s.cfg.sampleFn s.cfg.ps.D n1.toNat n2.toNat (s.input addr LB))

/-- `SAMP md, @addr, len, n1, n2` (R213). -/
def execSamp (md : MReg) (addr len : Word) (n1 n2 : BitVec 16) (s : State) :
    Host.Outcome State Fault Refusal :=
  s.finish (sampEffect md addr len n1 n2 s)

end Sys2Proof.Machine
end

