-- ==== Sys2Proof/Machine/Dispatch.lean ====
section
/-! DEFINITION. One arm per command: its meaning (30_encoding.md R92). -/

namespace Sys2Proof.Machine

/-- Execute one decoded command to its end (30_encoding.md R92, 20_memory.md R70). -/
def exec (i : Instr) (s : State) : Host.Outcome State Fault Refusal :=
  match i with
  | .mul md ma mb => Sys2Proof.Machine.execMul md ma mb s
  | .mac md ma mb me => Sys2Proof.Machine.execMac md ma mb me s
  | .add md ma mb => Sys2Proof.Machine.execAdd md ma mb s
  | .sub md ma mb => Sys2Proof.Machine.execSub md ma mb s
  | .enc md addr len => Sys2Proof.Machine.execEnc md addr len s
  | .dec addr len ma => Sys2Proof.Machine.execDec addr len ma s
  | .pack addr len ma => Sys2Proof.Machine.execPack addr len ma s
  | .unpack md addr len n1 n2 => Sys2Proof.Machine.execUnpack md addr len n1 n2 s
  | .gen md addr len => Sys2Proof.Machine.execGen md addr len s
  | .samp md addr len n1 n2 => Sys2Proof.Machine.execSamp md addr len n1 n2 s
  | .clr md => Sys2Proof.Machine.execClr md s

end Sys2Proof.Machine
end

