-- ==== Sys2Proof/Machine/HostPort.lean ====
section
/-! DEFINITION. The host's side of the block: the control window (10_state.md R32 to R41), issuing a
command (R36; 30_encoding.md R91, R92) and the host's moves (20_memory.md R68). -/

namespace Sys2Proof.Machine

/-- The number of the trigger register `CMD0` (10_state.md R32). -/
def regCmd0 : Nat := 0x01

/-- `PARAM_DB`: bits [4:0] `PS.D`, bits [12:8] `PS.B`, bit 16 the XOF (10_state.md R32). -/
def paramDb (ps : ParamSet) : Word :=
  let x : Nat := match ps.xof with
    | .shake128 => 0
    | .shake256 => 1
  BitVec.ofNat 32 (ps.D + ps.B * 2 ^ 8 + x * 2 ^ 16)

/-- `MRSHAPE[k]`: rows in [31:16] and columns in [15:0], or 0 when the register is invalid (10_state.md
R40). -/
def mrShape : Option Matrix → Word
  | some M => M.rows ++ M.cols
  | none => 0

/-- What a read of a control register returns (10_state.md R32 to R41). -/
def State.readReg (s : State) (r : Nat) : Word :=
  match r with
  | 0x00 => statusWord s.err s.esticky
  | 0x02 => s.cmd1
  | 0x03 => s.cmd2
  | 0x04 => s.cmd3
  | 0x08 => BitVec.ofNat 32 s.cfg.ps.n
  | 0x09 => paramDb s.cfg.ps
  | 0x0A => BitVec.ofNat 32 (s.cfg.ps.m * 2 ^ 16 + s.cfg.ps.nCols)
  | 0x0B => BitVec.ofNat 32 s.cfg.ps.l
  | 0x0C => BitVec.ofNat 32 (s.cfg.ps.lenSeedSE * 2 ^ 16 + s.cfg.ps.lenSeedA)
  | 0x0D => BitVec.ofNat 32 s.cfg.dmemSize
  | 0x10 => mrShape s.mr.m0
  | 0x11 => mrShape s.mr.m1
  | 0x12 => mrShape s.mr.m2
  | 0x13 => mrShape s.mr.m3
  | 0x14 => mrShape s.mr.m4
  | 0x15 => mrShape s.mr.m5
  | 0x16 => mrShape s.mr.m6
  | 0x17 => mrShape s.mr.m7
  | _ => 0

/-- Execute a descriptor (30_encoding.md R92): a rejected one ends with `IllegalCommand` and nothing
else happens (60_exceptions.md R234). -/
def State.issue (s : State) (d : Descriptor) : Host.Outcome State Fault Refusal :=
  match decode d with
  | .ok i => exec i s
  | .rejected _ => .next (s.raise .illegalCommand)

/-- The descriptor a write of `w` to `CMD0` issues (10_state.md R36). -/
def State.descriptor (s : State) (w : Word) : Descriptor := ⟨w, s.cmd1, s.cmd2, s.cmd3⟩

/-- `HostWriteReg(r, w)` (20_memory.md R68): the holding registers store, `CMD0` issues a command, and
every other number ignores the write (10_state.md R36, R37, R41). -/
def State.writeReg (s : State) (r : Nat) (w : Word) : Host.Outcome State Fault Refusal :=
  match r with
  | 0x01 => s.issue (s.descriptor w)
  | 0x02 => .next { s with cmd1 := w }
  | 0x03 => .next { s with cmd2 := w }
  | 0x04 => .next { s with cmd3 := w }
  | _ => .next s

/-- A reset move (70_reset_and_hazards.md R260, R261): the state after reset of the same instance, with
the host's moves still to come. -/
def State.resetMove (s : State) (contents : Nat) : State :=
  { State.afterReset s.cfg contents with host := s.host }

/-- One move of the host (20_memory.md R68), already taken from the list of coming moves. -/
def State.move (s : State) (a : HostAction) : Host.Outcome State Fault Refusal :=
  match a with
  | .writeByte a v =>
    if a < s.cfg.dmemSize then .next { s with dmem := s.dmem.write a v }
    else .fault (.outsideDmem a)
  | .readByte a =>
    if a < s.cfg.dmemSize then .next { s with reply := .byte (s.dmem.read a) }
    else .fault (.outsideDmem a)
  | .writeReg r w => s.writeReg r w
  | .readReg r => .next { s with reply := .word (s.readReg r) }
  | .reset contents => .next (s.resetMove contents)

/-- Take the host's next move: the rest stay to come, and nothing has been returned for it yet. -/
def State.takeMove (s : State) (rest : List HostAction) : State :=
  { s with host := rest, reply := .nothing }

end Sys2Proof.Machine
end

