-- ==== Sys2Proof/Machine/Step.lean ====
section
/-! DEFINITION. One step: the host's next move (20_memory.md R68, R70), or idling when there is none
(60_exceptions.md R253). -/

namespace Sys2Proof.Machine

/-- One step of the machine: serve the oldest of the host's coming moves to its end. With none pending
the block is idle and holds its state (60_exceptions.md R253; notes/assumptions/5.md). -/
def step (s : State) : Host.Outcome State Fault Refusal :=
  match s.host with
  | [] => .next s
  | a :: rest => (s.takeMove rest).move a

/-- `s` with the descriptor of an opcode-table word about to be issued: `W1` to `W3` in the holding
registers and the write of `W0` to `CMD0` as the host's next move (10_state.md R36, 30_encoding.md
R91; notes/assumptions/6.md). -/
def State.withFetchWord (s : State) (nbits w : Nat) : State :=
  let d := Descriptor.ofTable nbits w
  { s with
    cmd1 := d.w1
    cmd2 := d.w2
    cmd3 := d.w3
    host := .writeReg regCmd0 d.w0 :: s.host }

end Sys2Proof.Machine
end

