-- ==== Sys2Proof/Safety.lean ====
section
/-! DEFINITION. The terms in which claims speak of a run: what a step leaves unchanged, the two ways a
command ends, and the invariant of the machine. -/

namespace Sys2Proof.Machine

/-- Every matrix register holds what it held. -/
def MatricesKept (s t : State) : Prop := ∀ r, t.matrixAt r = s.matrixAt r

/-- Every matrix register but `d` holds what it held (10_state.md R25). -/
def MatricesKeptBut (d : MReg) (s t : State) : Prop := ∀ r, r ≠ d → t.matrixAt r = s.matrixAt r

/-- Every byte of `DMEM` holds what it held. -/
def MemoryKept (s t : State) : Prop := ∀ a, t.dmem.read a = s.dmem.read a

/-- Every byte of `DMEM` outside the `N` bytes at `addr` holds what it held (20_memory.md R64). -/
def MemoryKeptOutside (addr N : Nat) (s t : State) : Prop :=
  ∀ a, a < addr ∨ addr + N ≤ a → t.dmem.read a = s.dmem.read a

/-- The holding registers, the configuration and the host's side are as they were. -/
def RegistersKept (s t : State) : Prop :=
  t.cmd1 = s.cmd1 ∧ t.cmd2 = s.cmd2 ∧ t.cmd3 = s.cmd3 ∧ t.cfg = s.cfg ∧ t.host = s.host ∧
  t.reply = s.reply

/-- `STATUS` after a command that passed every check: `ERR` is 0 and `ESTICKY` is as it was (10_state.md
R34, R35). -/
def StatusCompleted (s t : State) : Prop := t.err = 0 ∧ t.esticky = s.esticky

/-- `STATUS` after an error completion with code `e` (60_exceptions.md R236). -/
def StatusRaised (e : ErrorCode) (s t : State) : Prop :=
  t.err = e.code ∧
  ∀ k, k < 8 → t.esticky.getLsbD k = (s.esticky.getLsbD k || decide (k = e.code.toNat))

/-- Nothing but `STATUS` changed, and it records the error `e` (60_exceptions.md R236). -/
def ErrorCompletion (e : ErrorCode) (s t : State) : Prop :=
  StatusRaised e s t ∧ MatricesKept s t ∧ MemoryKept s t ∧ RegistersKept s t

/-- The command completed, its one write was matrix register `d`, which now holds `P`, and nothing else
changed but `STATUS` (10_state.md R25, 30_encoding.md R93). -/
def MatrixCompletion (d : MReg) (P : Matrix) (s t : State) : Prop :=
  t.matrixAt d = some P ∧ StatusCompleted s t ∧ MatricesKeptBut d s t ∧ MemoryKept s t ∧
  RegistersKept s t

/-- The command completed, its one write was the `N` bytes at `addr`, whose bit stream is now `f`, and
nothing else changed but `STATUS` (20_memory.md R64, 00_scope.md R12). -/
def BytesCompletion (addr N : Nat) (f : Nat → Bool) (s t : State) : Prop :=
  (∀ p, p < 8 * N → getbit (t.dmem.readBytes addr N) p = f p) ∧ StatusCompleted s t ∧
  MatricesKept s t ∧ MemoryKeptOutside addr N s t ∧ RegistersKept s t

/-- `P` is an `r` by `c` matrix, with exactly as many entries as that shape has. -/
def Matrix.Shape (P : Matrix) (r c : Nat) : Prop :=
  P.rows.toNat = r ∧ P.cols.toNat = c ∧ P.entries.length = r * c

/-- `P` is the `r` by `c` matrix whose entry `(i, j)` is the number `f i j`. -/
def Matrix.Is (P : Matrix) (r c : Nat) (f : Nat → Nat → Nat) : Prop :=
  P.Shape r c ∧ ∀ i j, i < r → j < c → (P.entry i j).toNat = f i j

/-- A legal value of a matrix register: the shape limits of 10_state.md R22, as many entries as the
shape says, each in `[0, 2^D)` (R23). -/
def Matrix.Legal (ps : ParamSet) (M : Matrix) : Prop :=
  (1 ≤ M.rows.toNat ∧ M.rows.toNat ≤ ps.n) ∧ (1 ≤ M.cols.toNat ∧ M.cols.toNat ≤ ps.n) ∧
  M.entries.length = M.rows.toNat * M.cols.toNat ∧ ∀ e ∈ M.entries, e.toNat < 2 ^ ps.D

/-- Two values of a matrix register that agree in validity and shape: what `MRSHAPE` shows (10_state.md
R27, R40). -/
def SameShape : Option Matrix → Option Matrix → Prop
  | some M, some N => M.rows = N.rows ∧ M.cols = N.cols
  | none, none => True
  | _, _ => False

/-- THE INVARIANT. Every valid matrix register holds a legal value (10_state.md R22, R23); memory is in
its canonical form and lists no address outside `DMEM` (20_memory.md R60); bit 0 of `ESTICKY` is 0
(R33); and the error in `ERR`, if any, is recorded in `ESTICKY` (R34, R35). -/
def State.Inv (s : State) : Prop :=
  (∀ r M, s.matrixAt r = some M → M.Legal s.cfg.ps) ∧
  s.dmem.wf = true ∧
  (∀ c ∈ s.dmem.cells, c.1 < s.cfg.dmemSize) ∧
  s.esticky.getLsbD 0 = false ∧
  (s.err ≠ 0 → s.esticky.getLsbD s.err.toNat = true)

/-- The source registers a command names (10_state.md R26, 60_exceptions.md R233). -/
def sources : Instr → List MReg
  | .mul _ ma mb => [ma, mb]
  | .mac _ ma mb me => [ma, mb, me]
  | .add _ ma mb => [ma, mb]
  | .sub _ ma mb => [ma, mb]
  | .enc _ _ _ => []
  | .dec _ _ ma => [ma]
  | .pack _ _ ma => [ma]
  | .unpack _ _ _ _ _ => []
  | .gen _ _ _ => []
  | .samp _ _ _ _ _ => []
  | .clr _ => []

/-- The matrix register a command writes when it completes (10_state.md R26). -/
def destination : Instr → Option MReg
  | .mul md _ _ => some md
  | .mac md _ _ _ => some md
  | .add md _ _ => some md
  | .sub md _ _ => some md
  | .enc md _ _ => some md
  | .dec _ _ _ => none
  | .pack _ _ _ => none
  | .unpack md _ _ _ _ => some md
  | .gen md _ _ => some md
  | .samp md _ _ _ _ => some md
  | .clr md => some md

/-- The bytes of `DMEM` a command reads when it completes, as an address and a length (20_memory.md
R67). -/
def inputRange (ps : ParamSet) : Instr → Nat × Nat
  | .enc _ addr _ => (addr.toNat, plainBytes ps)
  | .unpack _ addr _ n1 n2 => (addr.toNat, packedBytes ps n1.toNat n2.toNat)
  | .gen _ addr _ => (addr.toNat, seedBytes ps)
  | .samp _ addr _ n1 n2 => (addr.toNat, sampleBytes n1.toNat n2.toNat)
  | .mul _ _ _ | .mac _ _ _ _ | .add _ _ _ | .sub _ _ _ | .dec _ _ _ | .pack _ _ _ | .clr _ =>
    (0, 0)

/-- The bytes of `DMEM` a command writes when it completes, as an address and a length (20_memory.md
R67); the length of `PACK`'s comes from the shape of its source. -/
def outputRange (s : State) : Instr → Nat × Nat
  | .dec addr _ _ => (addr.toNat, plainBytes s.cfg.ps)
  | .pack addr _ ma =>
    match s.matrixAt ma with
    | some M => (addr.toNat, packedBytes s.cfg.ps M.rows.toNat M.cols.toNat)
    | none => (0, 0)
  | .mul _ _ _ | .mac _ _ _ _ | .add _ _ _ | .sub _ _ _ | .enc _ _ _ | .unpack _ _ _ _ _
  | .gen _ _ _ | .samp _ _ _ _ _ | .clr _ => (0, 0)

/-- A move of the host that 20_memory.md R68 gives it: a memory access is below `DMEM_SIZE`. -/
def HostAction.inBlock (c : Config) : HostAction → Bool
  | .writeByte a _ => a < c.dmemSize
  | .readByte a => a < c.dmemSize
  | .writeReg _ _ => true
  | .readReg _ => true
  | .reset _ => true

end Sys2Proof.Machine
end

