-- ==== Sys2Proof/Certificates/Slice0/Obligations.lean ====
section
/-! DEFINITION. The statements for the provers. Each docstring names the rules of spec/ it rests on;
the vocabulary (`MatrixCompletion`, `BytesCompletion`, `ErrorCompletion`, `State.Inv`, …) is that of
Sys2Proof/Safety.lean. `⌈x/8⌉` is written `(x + 7) / 8`. -/

open Sys2Proof Sys2Proof.Machine

section Vocabulary

namespace Sys2Proof.Machine

/-- One row of spec/opcode_table.json: the opcode, the fixed bits of `W0`, and which bits of each word
are fixed (those of `W1` to `W3` at zero). -/
structure OpcodeRow where
  opcode : Nat
  match0 : Word
  mask0 : Word
  mask1 : Word
  mask2 : Word
  mask3 : Word

/-- The table's eleven rows, in its order: `opcode`, `match_W0`, `mask_W0` to `mask_W3`. -/
def opcodeRows : List OpcodeRow :=
  [⟨0x01, 0x01000000, 0xFF007FFF, 0xFFFFFFFF, 0xFFFFFFFF, 0xFFFFFFFF⟩,
   ⟨0x02, 0x02000000, 0xFF000FFF, 0xFFFFFFFF, 0xFFFFFFFF, 0xFFFFFFFF⟩,
   ⟨0x03, 0x03000000, 0xFF007FFF, 0xFFFFFFFF, 0xFFFFFFFF, 0xFFFFFFFF⟩,
   ⟨0x04, 0x04000000, 0xFF007FFF, 0xFFFFFFFF, 0xFFFFFFFF, 0xFFFFFFFF⟩,
   ⟨0x10, 0x10000000, 0xFF1FFFFF, 0x00000000, 0x00000000, 0xFFFFFFFF⟩,
   ⟨0x11, 0x11000000, 0xFFE3FFFF, 0x00000000, 0x00000000, 0xFFFFFFFF⟩,
   ⟨0x12, 0x12000000, 0xFFE3FFFF, 0x00000000, 0x00000000, 0xFFFFFFFF⟩,
   ⟨0x13, 0x13000000, 0xFF1FFFFF, 0x00000000, 0x00000000, 0x00000000⟩,
   ⟨0x20, 0x20000000, 0xFF1FFFFF, 0x00000000, 0x00000000, 0xFFFFFFFF⟩,
   ⟨0x21, 0x21000000, 0xFF1FFFFF, 0x00000000, 0x00000000, 0x00000000⟩,
   ⟨0x30, 0x30000000, 0xFF1FFFFF, 0xFFFFFFFF, 0xFFFFFFFF, 0xFFFFFFFF⟩]

/-- The descriptor has the row's fixed bits. -/
def OpcodeRow.Fits (r : OpcodeRow) (d : Descriptor) : Prop :=
  d.w0 &&& r.mask0 = r.match0 ∧ d.w1 &&& r.mask1 = 0 ∧ d.w2 &&& r.mask2 = 0 ∧ d.w3 &&& r.mask3 = 0

/-- The `ERR` values a command can end with, by its opcode byte (table of 60_exceptions.md R239). -/
def possibleErrors : Nat → List Nat
  | 0x01 | 0x02 | 0x03 | 0x04 => [5, 6, 4, 0]
  | 0x10 => [5, 3, 7, 0]
  | 0x11 => [5, 6, 4, 3, 7, 0]
  | 0x12 => [5, 6, 2, 7, 0]
  | 0x13 => [5, 2, 7, 0]
  | 0x20 => [5, 1, 7, 0]
  | 0x21 => [5, 2, 7, 0]
  | 0x30 => [5, 0]
  | _ => [5]

end Sys2Proof.Machine

end Vocabulary

section Encoding

/-- Decoding the encoding of a command gives the command back (30_encoding.md R90, R95, R96, R99). -/
def Obligations.DecodeOfEncodeIsTheCommand : Prop :=
  ∀ i : Instr, decode (encode i) = .ok i

/-- A descriptor the decoder accepts is the encoding of what it stands for: no bit is ignored
(30_encoding.md R95). -/
def Obligations.EncodeOfDecodeIsTheDescriptor : Prop :=
  ∀ (d : Descriptor) (i : Instr), decode d = .ok i → encode i = d

/-- The decoder accepts exactly the descriptors that fit a row of the opcode table (30_encoding.md R95,
R96, R97). -/
def Obligations.DecodeAcceptsExactlyTheOpcodeTable : Prop :=
  ∀ d : Descriptor, (∃ i, decode d = .ok i) ↔ ∃ row ∈ opcodeRows, row.Fits d

/-- The worked encodings of 30_encoding.md section 5: the eleven descriptors decode to their commands, and
the five illegal ones end with `STATUS.ERR = 5`. (An inference that the spec marks as its own: "Worked
encodings, each derived from rules R90 and R95".) -/
def Obligations.WorkedEncodingsDecode : Prop :=
  decode ⟨0x01408000, 0, 0, 0⟩ = .ok (.mul .m2 .m0 .m1) ∧
  decode ⟨0x0260A000, 0, 0, 0⟩ = .ok (.mac .m3 .m0 .m1 .m2) ∧
  decode ⟨0x03000000, 0, 0, 0⟩ = .ok (.add .m0 .m0 .m0) ∧
  decode ⟨0x04FA8000, 0, 0, 0⟩ = .ok (.sub .m7 .m6 .m5) ∧
  decode ⟨0x10800000, 0x200, 0x10, 0⟩ = .ok (.enc .m4 0x200 16) ∧
  decode ⟨0x11100000, 0x300, 0x10, 0⟩ = .ok (.dec 0x300 16 .m4) ∧
  decode ⟨0x12140000, 0x1000, 0x2580, 0⟩ = .ok (.pack 0x1000 9600 .m5) ∧
  decode ⟨0x13200000, 0x100, 3, 0x00020002⟩ = .ok (.unpack .m1 0x100 3 2 2) ∧
  decode ⟨0x20000000, 0, 0x10, 0⟩ = .ok (.gen .m0 0 16) ∧
  decode ⟨0x21200000, 0x40, 0x2800, 0x02800008⟩ = .ok (.samp .m1 0x40 10240 640 8) ∧
  decode ⟨0x30C00000, 0, 0, 0⟩ = .ok (.clr .m6) ∧
  ∀ (s : State) (d : Descriptor),
    d ∈ ([⟨0, 0, 0, 0⟩, ⟨0x01408001, 0, 0, 0⟩, ⟨0x01409000, 0, 0, 0⟩, ⟨0x30C00000, 0, 1, 0⟩,
      ⟨0x13200000, 0, 0, 2⟩] : List Descriptor) →
    ∃ t, s.issue d = .next t ∧ t.err = 5

end Encoding

section Issuing

/-- When the descriptor formed by the write of `CMD0` and the holding registers decodes to a command,
the step runs that command on the state with the move taken off (10_state.md R36, 20_memory.md R70). -/
def Obligations.StepRunsTheIssuedCommand : Prop :=
  ∀ (s : State) (w : Word) (rest : List HostAction) (i : Instr),
    s.host = .writeReg 0x01 w :: rest → decode ⟨w, s.cmd1, s.cmd2, s.cmd3⟩ = .ok i →
    step s = exec i (s.takeMove rest) ∧
    (s.takeMove rest).host = rest ∧ (s.takeMove rest).reply = .nothing ∧
    MatricesKept s (s.takeMove rest) ∧ MemoryKept s (s.takeMove rest) ∧
    (s.takeMove rest).err = s.err ∧ (s.takeMove rest).esticky = s.esticky ∧
    (s.takeMove rest).cmd1 = s.cmd1 ∧ (s.takeMove rest).cmd2 = s.cmd2 ∧
    (s.takeMove rest).cmd3 = s.cmd3 ∧ (s.takeMove rest).cfg = s.cfg

/-- An undefined opcode ends with `IllegalCommand` and changes nothing else, whatever the other fields
(30_encoding.md R97). -/
def Obligations.UndefinedOpcodeIsIllegal : Prop :=
  ∀ (s : State) (w : Word) (rest : List HostAction), s.host = .writeReg 0x01 w :: rest →
    w.toNat / 2 ^ 24 ∉ [0x01, 0x02, 0x03, 0x04, 0x10, 0x11, 0x12, 0x13, 0x20, 0x21, 0x30] →
    ∃ t, step s = .next t ∧ ErrorCompletion .illegalCommand (s.takeMove rest) t

/-- A nonzero field that the command does not use, or a nonzero reserved field, ends with
`IllegalCommand` and changes nothing else (30_encoding.md R95). -/
def Obligations.NonzeroUnusedFieldIsIllegal : Prop :=
  ∀ (s : State) (w : Word) (rest : List HostAction) (row : OpcodeRow),
    s.host = .writeReg 0x01 w :: rest → row ∈ opcodeRows → w.toNat / 2 ^ 24 = row.opcode →
    ¬ row.Fits ⟨w, s.cmd1, s.cmd2, s.cmd3⟩ →
    ∃ t, step s = .next t ∧ ErrorCompletion .illegalCommand (s.takeMove rest) t

/-- `UNPACK` and `SAMP` with a dimension outside `[1, n]` end with `IllegalCommand`, whatever their
other operands; with both dimensions inside they never do, and the matrix they build, when they complete,
has `n1` rows and `n2` columns (30_encoding.md R98). -/
def Obligations.DimensionsOutsideTheLimitsAreIllegal : Prop :=
  ∀ (s : State) (md : MReg) (addr len : Word) (n1 n2 : BitVec 16),
    (¬ ((1 ≤ n1.toNat ∧ n1.toNat ≤ s.cfg.ps.n) ∧ (1 ≤ n2.toNat ∧ n2.toNat ≤ s.cfg.ps.n)) →
      (∃ t, exec (.unpack md addr len n1 n2) s = .next t ∧ ErrorCompletion .illegalCommand s t) ∧
      (∃ t, exec (.samp md addr len n1 n2) s = .next t ∧ ErrorCompletion .illegalCommand s t)) ∧
    ((1 ≤ n1.toNat ∧ n1.toNat ≤ s.cfg.ps.n) ∧ (1 ≤ n2.toNat ∧ n2.toNat ≤ s.cfg.ps.n) →
      (∃ t, exec (.unpack md addr len n1 n2) s = .next t ∧ t.err ≠ 5 ∧
        (t.err = 0 → ∃ P, t.matrixAt md = some P ∧ P.rows = n1 ∧ P.cols = n2)) ∧
      (∃ t, exec (.samp md addr len n1 n2) s = .next t ∧ t.err ≠ 5 ∧
        (t.err = 0 → ∃ P, t.matrixAt md = some P ∧ P.rows = n1 ∧ P.cols = n2)))

/-- Every descriptor the decoder does not accept, or whose dimensions are outside the limits, ends with
`IllegalCommand`, and the block goes on to the host's next move (60_exceptions.md R234). -/
def Obligations.UnacceptedDescriptorEndsWithIllegalCommand : Prop :=
  ∀ (s : State) (w : Word) (rest : List HostAction), s.host = .writeReg 0x01 w :: rest →
    (¬ ∃ i, decode ⟨w, s.cmd1, s.cmd2, s.cmd3⟩ = .ok i ∧ i.wellFormed s.cfg.ps = true) →
    ∃ t, step s = .next t ∧ ErrorCompletion .illegalCommand (s.takeMove rest) t ∧ t.host = rest

end Issuing

section Arithmetic

/-- `MUL`: entry `(i, j)` is the sum of products reduced modulo `2^D`, and nothing but `md` and `STATUS`
changes (40_matrix_arithmetic.md R122, R120). -/
def Obligations.MulWritesTheReducedProduct : Prop :=
  ∀ (s : State) (md ma mb : MReg) (A B : Machine.Matrix),
    s.matrixAt ma = some A → s.matrixAt mb = some B → A.cols = B.rows →
    ∃ t P, exec (.mul md ma mb) s = .next t ∧ MatrixCompletion md P s t ∧
      P.Is A.rows.toNat B.cols.toNat fun i j =>
        (∑ x ∈ Finset.range A.cols.toNat, (A.entry i x).toNat * (B.entry x j).toNat) %
          2 ^ s.cfg.ps.D

/-- `MAC`: entry `(i, j)` is the sum of products plus the addend, reduced once modulo `2^D`, and nothing
but `md` and `STATUS` changes (40_matrix_arithmetic.md R123, R120). -/
def Obligations.MacWritesTheReducedProductPlusAddend : Prop :=
  ∀ (s : State) (md ma mb me : MReg) (A B E : Machine.Matrix),
    s.matrixAt ma = some A → s.matrixAt mb = some B → s.matrixAt me = some E →
    A.cols = B.rows → E.rows = A.rows → E.cols = B.cols →
    ∃ t P, exec (.mac md ma mb me) s = .next t ∧ MatrixCompletion md P s t ∧
      P.Is A.rows.toNat B.cols.toNat fun i j =>
        ((∑ x ∈ Finset.range A.cols.toNat, (A.entry i x).toNat * (B.entry x j).toNat) +
          (E.entry i j).toNat) % 2 ^ s.cfg.ps.D

/-- `ADD`: entry `(i, j)` is the sum modulo `2^D`, and nothing but `md` and `STATUS` changes
(40_matrix_arithmetic.md R124, R120). -/
def Obligations.AddWritesTheReducedSum : Prop :=
  ∀ (s : State) (md ma mb : MReg) (A B : Machine.Matrix),
    s.matrixAt ma = some A → s.matrixAt mb = some B → A.rows = B.rows → A.cols = B.cols →
    ∃ t P, exec (.add md ma mb) s = .next t ∧ MatrixCompletion md P s t ∧
      P.Is A.rows.toNat A.cols.toNat fun i j =>
        ((A.entry i j).toNat + (B.entry i j).toNat) % 2 ^ s.cfg.ps.D

/-- `SUB`: entry `(i, j)` is the integer difference modulo `2^D`, which for ring elements is `A - B` when
`A ≥ B` and `A - B + 2^D` otherwise; and nothing but `md` and `STATUS` changes (40_matrix_arithmetic.md
R125, R120). -/
def Obligations.SubWritesTheReducedDifference : Prop :=
  ∀ (s : State) (md ma mb : MReg) (A B : Machine.Matrix),
    s.matrixAt ma = some A → s.matrixAt mb = some B → A.rows = B.rows → A.cols = B.cols →
    ∃ t P, exec (.sub md ma mb) s = .next t ∧ MatrixCompletion md P s t ∧
      (P.Is A.rows.toNat A.cols.toNat fun i j =>
        (((A.entry i j).toNat - (B.entry i j).toNat : Int) % (2 ^ s.cfg.ps.D : Nat)).toNat) ∧
      (A.Legal s.cfg.ps → B.Legal s.cfg.ps → P.Is A.rows.toNat A.cols.toNat fun i j =>
        if (B.entry i j).toNat ≤ (A.entry i j).toNat then
          (A.entry i j).toNat - (B.entry i j).toNat
        else (A.entry i j).toNat + 2 ^ s.cfg.ps.D - (B.entry i j).toNat)

/-- The shape rule of the four arithmetic commands: the shapes that fit complete with the shape the rule
gives, every other combination is `DimensionMismatch` (40_matrix_arithmetic.md R126). -/
def Obligations.ArithmeticShapeRule : Prop :=
  ∀ (s : State) (md ma mb me : MReg) (A B E : Machine.Matrix),
    s.matrixAt ma = some A → s.matrixAt mb = some B →
    ((A.cols = B.rows → ∃ t P, exec (.mul md ma mb) s = .next t ∧ t.err = 0 ∧
        t.matrixAt md = some P ∧ P.rows = A.rows ∧ P.cols = B.cols) ∧
      (A.cols ≠ B.rows →
        ∃ t, exec (.mul md ma mb) s = .next t ∧ ErrorCompletion .dimensionMismatch s t)) ∧
    (s.matrixAt me = some E →
      (A.cols = B.rows ∧ E.rows = A.rows ∧ E.cols = B.cols →
        ∃ t P, exec (.mac md ma mb me) s = .next t ∧ t.err = 0 ∧
          t.matrixAt md = some P ∧ P.rows = A.rows ∧ P.cols = B.cols) ∧
      (¬ (A.cols = B.rows ∧ E.rows = A.rows ∧ E.cols = B.cols) →
        ∃ t, exec (.mac md ma mb me) s = .next t ∧ ErrorCompletion .dimensionMismatch s t)) ∧
    (A.rows = B.rows ∧ A.cols = B.cols →
      (∃ t P, exec (.add md ma mb) s = .next t ∧ t.err = 0 ∧
        t.matrixAt md = some P ∧ P.rows = A.rows ∧ P.cols = A.cols) ∧
      (∃ t P, exec (.sub md ma mb) s = .next t ∧ t.err = 0 ∧
        t.matrixAt md = some P ∧ P.rows = A.rows ∧ P.cols = A.cols)) ∧
    (¬ (A.rows = B.rows ∧ A.cols = B.cols) →
      (∃ t, exec (.add md ma mb) s = .next t ∧ ErrorCompletion .dimensionMismatch s t) ∧
      (∃ t, exec (.sub md ma mb) s = .next t ∧ ErrorCompletion .dimensionMismatch s t))

/-- Every entry that `MUL`, `MAC`, `ADD` or `SUB` writes is in `[0, 2^D)`, whatever the sources hold
(40_matrix_arithmetic.md R127). -/
def Obligations.ArithmeticEntriesAreReduced : Prop :=
  ∀ (s t : State) (md ma mb me : MReg) (i : Instr),
    i ∈ [Instr.mul md ma mb, .mac md ma mb me, .add md ma mb, .sub md ma mb] →
    exec i s = .next t → t.err = 0 →
    ∃ P, t.matrixAt md = some P ∧ ∀ e ∈ P.entries, e.toNat < 2 ^ s.cfg.ps.D

/-- The four arithmetic commands are pure: they touch no byte of `DMEM`, write no register but `md`, and
given the same source values and `D` they give the same result (40_matrix_arithmetic.md R128). -/
def Obligations.ArithmeticIsPure : Prop :=
  ∀ (s s' t t' : State) (md ma mb me : MReg) (i : Instr),
    i ∈ [Instr.mul md ma mb, .mac md ma mb me, .add md ma mb, .sub md ma mb] →
    s.cfg.ps.D = s'.cfg.ps.D → (∀ r ∈ sources i, s.matrixAt r = s'.matrixAt r) →
    exec i s = .next t → exec i s' = .next t' →
    MemoryKept s t ∧ MatricesKeptBut md s t ∧ RegistersKept s t ∧ t.err = t'.err ∧
    (t.err = 0 → t.matrixAt md = t'.matrixAt md)

/-- The ring laws of addition and subtraction, and `MAC` as `ADD` of `MUL`, for legal matrices of
fitting shapes. (An inference that the spec marks as its own: 40_matrix_arithmetic.md, "Ring laws a model
may prove and a test may use".) -/
def Obligations.AdditiveRingLaws : Prop :=
  ∀ (ps : ParamSet) (X Y Z : Machine.Matrix), X.Legal ps → Y.Legal ps → Z.Legal ps →
    (X.rows = Y.rows ∧ X.cols = Y.cols → matAdd ps.D X Y = matAdd ps.D Y X ∧
      matSub ps.D (matAdd ps.D X Y) Y = X ∧ matAdd ps.D (matSub ps.D X Y) Y = X) ∧
    (X.rows = Y.rows ∧ X.cols = Y.cols ∧ Y.rows = Z.rows ∧ Y.cols = Z.cols →
      matAdd ps.D (matAdd ps.D X Y) Z = matAdd ps.D X (matAdd ps.D Y Z)) ∧
    (X.cols = Y.rows ∧ Z.rows = X.rows ∧ Z.cols = Y.cols →
      matMulAdd ps.D X Y Z = matAdd ps.D (matMul ps.D X Y) Z)

/-- `MUL` is associative and distributes over `ADD` and `SUB` on both sides, for legal matrices of
fitting shapes; and it is not commutative, on square matrices not either. (An inference that the spec
marks as its own: 40_matrix_arithmetic.md, "Ring laws a model may prove and a test may use".) -/
def Obligations.MultiplicativeRingLaws : Prop :=
  (∀ (ps : ParamSet) (X Y Z : Machine.Matrix), X.Legal ps → Y.Legal ps → Z.Legal ps →
    (X.cols = Y.rows ∧ Y.cols = Z.rows →
      matMul ps.D (matMul ps.D X Y) Z = matMul ps.D X (matMul ps.D Y Z)) ∧
    (X.cols = Y.rows ∧ Y.rows = Z.rows ∧ Y.cols = Z.cols →
      matMul ps.D X (matAdd ps.D Y Z) = matAdd ps.D (matMul ps.D X Y) (matMul ps.D X Z) ∧
      matMul ps.D X (matSub ps.D Y Z) = matSub ps.D (matMul ps.D X Y) (matMul ps.D X Z)) ∧
    (X.rows = Y.rows ∧ X.cols = Y.cols ∧ Y.cols = Z.rows →
      matMul ps.D (matAdd ps.D X Y) Z = matAdd ps.D (matMul ps.D X Z) (matMul ps.D Y Z) ∧
      matMul ps.D (matSub ps.D X Y) Z = matSub ps.D (matMul ps.D X Z) (matMul ps.D Y Z))) ∧
  ∀ ps : ParamSet, ∃ X Y : Machine.Matrix, X.Legal ps ∧ Y.Legal ps ∧
    X.rows = X.cols ∧ Y.rows = X.rows ∧ Y.cols = X.cols ∧ matMul ps.D X Y ≠ matMul ps.D Y X

end Arithmetic

section EncodeDecode

/-- `ENC`: the cell's `B` stream bits stand in the top `B` of the entry's `D` bits, first bit highest, all
other bits zero, and nothing but `md` and `STATUS` changes (41_encode_decode.md R140, R142). -/
def Obligations.EncPutsThePlaintextBitsOnTop : Prop :=
  ∀ (s : State) (md : MReg) (addr len : Word),
    len.toNat = (s.cfg.ps.B * s.cfg.ps.m * s.cfg.ps.nCols + 7) / 8 →
    addr.toNat + len.toNat ≤ s.cfg.dmemSize →
    ∃ t P, exec (.enc md addr len) s = .next t ∧ MatrixCompletion md P s t ∧
      P.Shape s.cfg.ps.m s.cfg.ps.nCols ∧
      ∀ i j b, i < s.cfg.ps.m → j < s.cfg.ps.nCols → b < 16 →
        (P.entry i j).getLsbD b =
          if s.cfg.ps.D - s.cfg.ps.B ≤ b ∧ b < s.cfg.ps.D then
            getbit (s.dmem.readBytes addr.toNat len.toNat)
              (s.cfg.ps.B * (i * s.cfg.ps.nCols + j) + (s.cfg.ps.D - 1 - b))
          else false

/-- The rounding function, for `e` below `2^D`: it is `((e·2^B + 2^(D-1)) div 2^D) mod 2^B`, that is
`((e + 2^(D-B-1)) div 2^(D-B)) mod 2^B` when `B < D` and `e` itself when `B = D`; its value is below `2^B`;
a tie rounds up; and the entries nearest to `2^D` wrap to 0 (41_encode_decode.md R143). -/
def Obligations.DecodeRoundsHalfUp : Prop :=
  ∀ (ps : ParamSet) (e : Nat), e < 2 ^ ps.D →
    decodeEntry ps e = (e * 2 ^ ps.B + 2 ^ (ps.D - 1)) / 2 ^ ps.D % 2 ^ ps.B ∧
    decodeEntry ps e < 2 ^ ps.B ∧
    (ps.B = ps.D → decodeEntry ps e = e) ∧
    (ps.B < ps.D →
      decodeEntry ps e = (e + 2 ^ (ps.D - ps.B - 1)) / 2 ^ (ps.D - ps.B) % 2 ^ ps.B ∧
      (e % 2 ^ (ps.D - ps.B) = 2 ^ (ps.D - ps.B - 1) →
        decodeEntry ps e = (e / 2 ^ (ps.D - ps.B) + 1) % 2 ^ ps.B) ∧
      (2 ^ ps.D - 2 ^ (ps.D - ps.B - 1) ≤ e → decodeEntry ps e = 0))

/-- The exact margin, for `B < D`: the entry `v · 2^(D-B) + d` modulo `2^D` decodes to `v` exactly when
`-h ≤ d ≤ h - 1` with `h = 2^(D-B-1)`, and to `v + 1` modulo `2^B` when `d = h`; for `B = D` only `d = 0`
decodes to `v`; and on FRODO-640 the entries that decode to 1 are `0x1000` to `0x2FFF`. (This is an
inference that the spec marks as its own: 41_encode_decode.md, "The exact margin of rule R143, from which
rule R150 follows".) -/
def Obligations.DecodeMarginIsExact : Prop :=
  (∀ (ps : ParamSet) (v : Nat) (d : Int), ps.B < ps.D → v < 2 ^ ps.B →
    -(2 ^ (ps.D - 1) : Nat) ≤ d → d < (2 ^ (ps.D - 1) : Nat) →
    (decodeEntry ps (((v * 2 ^ (ps.D - ps.B) : Nat) + d) % (2 ^ ps.D : Nat)).toNat = v ↔
      -(2 ^ (ps.D - ps.B - 1) : Nat) ≤ d ∧ d ≤ (2 ^ (ps.D - ps.B - 1) : Nat) - 1) ∧
    (d = (2 ^ (ps.D - ps.B - 1) : Nat) →
      decodeEntry ps (((v * 2 ^ (ps.D - ps.B) : Nat) + d) % (2 ^ ps.D : Nat)).toNat =
        (v + 1) % 2 ^ ps.B)) ∧
  (∀ (ps : ParamSet) (v : Nat) (d : Int), ps.B = ps.D → v < 2 ^ ps.B →
    -(2 ^ (ps.D - 1) : Nat) ≤ d → d < (2 ^ (ps.D - 1) : Nat) →
    (decodeEntry ps (((v : Int) + d) % (2 ^ ps.D : Nat)).toNat = v ↔ d = 0)) ∧
  ∀ e, e < 2 ^ 15 → (decodeEntry .frodo640 e = 1 ↔ 0x1000 ≤ e ∧ e ≤ 0x2FFF)

/-- `DEC`: the cell's rounded value is written most significant bit first, pad bits are zero, and
nothing but those `⌈l/8⌉` bytes and `STATUS` changes (41_encode_decode.md R143, R144). -/
def Obligations.DecWritesTheRoundedCells : Prop :=
  ∀ (s : State) (addr len : Word) (ma : MReg) (M : Machine.Matrix), s.dmem.wf = true →
    s.matrixAt ma = some M → M.rows.toNat = s.cfg.ps.m → M.cols.toNat = s.cfg.ps.nCols →
    len.toNat = (s.cfg.ps.B * s.cfg.ps.m * s.cfg.ps.nCols + 7) / 8 →
    addr.toNat + len.toNat ≤ s.cfg.dmemSize →
    ∃ t, exec (.dec addr len ma) s = .next t ∧
      BytesCompletion addr.toNat ((s.cfg.ps.B * s.cfg.ps.m * s.cfg.ps.nCols + 7) / 8)
        (fun p =>
          if p < s.cfg.ps.B * s.cfg.ps.m * s.cfg.ps.nCols then
            Nat.testBit
              (((M.entry (p / s.cfg.ps.B / s.cfg.ps.nCols)
                (p / s.cfg.ps.B % s.cfg.ps.nCols)).toNat * 2 ^ s.cfg.ps.B +
                  2 ^ (s.cfg.ps.D - 1)) / 2 ^ s.cfg.ps.D % 2 ^ s.cfg.ps.B)
              (s.cfg.ps.B - 1 - p % s.cfg.ps.B)
          else false) s t

/-- Round trip under noise: `ENC` of a plaintext with zero pad bits, `ADD` of a matrix whose every entry
has magnitude below `2^(D-B-1)`, then `DEC`, leaves the plaintext in memory; and with no noise `DEC` of
`ENC` does so in every state, whatever the registers hold (41_encode_decode.md R150). -/
def Obligations.DecodeOfEncodePlusNoiseIsThePlaintext : Prop :=
  (∀ (s : State) (mk me mc : MReg) (ak aout len : Word) (E : Machine.Matrix), s.dmem.wf = true →
    mk ≠ me → s.matrixAt me = some E → E.Legal s.cfg.ps →
    E.rows.toNat = s.cfg.ps.m → E.cols.toNat = s.cfg.ps.nCols →
    (∀ e ∈ E.entries, magnitude s.cfg.ps.D e < 2 ^ (s.cfg.ps.D - s.cfg.ps.B - 1)) →
    len.toNat = (s.cfg.ps.B * s.cfg.ps.m * s.cfg.ps.nCols + 7) / 8 →
    ak.toNat + len.toNat ≤ s.cfg.dmemSize → aout.toNat + len.toNat ≤ s.cfg.dmemSize →
    (∀ p, s.cfg.ps.B * s.cfg.ps.m * s.cfg.ps.nCols ≤ p → p < 8 * len.toNat →
      getbit (s.dmem.readBytes ak.toNat len.toNat) p = false) →
    ∃ s1 s2 s3, exec (.enc mk ak len) s = .next s1 ∧ exec (.add mc mk me) s1 = .next s2 ∧
      exec (.dec aout len mc) s2 = .next s3 ∧ s3.err = 0 ∧
      s3.dmem.readBytes aout.toNat len.toNat = s.dmem.readBytes ak.toNat len.toNat) ∧
  ∀ (s : State) (mk : MReg) (ak aout len : Word), s.dmem.wf = true →
    len.toNat = (s.cfg.ps.B * s.cfg.ps.m * s.cfg.ps.nCols + 7) / 8 →
    ak.toNat + len.toNat ≤ s.cfg.dmemSize → aout.toNat + len.toNat ≤ s.cfg.dmemSize →
    (∀ p, s.cfg.ps.B * s.cfg.ps.m * s.cfg.ps.nCols ≤ p → p < 8 * len.toNat →
      getbit (s.dmem.readBytes ak.toNat len.toNat) p = false) →
    ∃ s1 s2, exec (.enc mk ak len) s = .next s1 ∧ exec (.dec aout len mk) s1 = .next s2 ∧
      s2.err = 0 ∧
      s2.dmem.readBytes aout.toNat len.toNat = s.dmem.readBytes ak.toNat len.toNat

end EncodeDecode

section PackUnpack

/-- `PACK`: the `D` bits of each entry in row-major order, most significant first, pad bits zero, and
nothing but those `⌈D·r·c/8⌉` bytes and `STATUS` changes (42_pack_unpack.md R160, R162). -/
def Obligations.PackWritesTheEntriesBitByBit : Prop :=
  ∀ (s : State) (addr len : Word) (ma : MReg) (M : Machine.Matrix), s.dmem.wf = true →
    s.matrixAt ma = some M →
    (s.cfg.ps.D * M.rows.toNat * M.cols.toNat + 7) / 8 ≤ len.toNat →
    addr.toNat + len.toNat ≤ s.cfg.dmemSize →
    ∃ t, exec (.pack addr len ma) s = .next t ∧
      BytesCompletion addr.toNat ((s.cfg.ps.D * M.rows.toNat * M.cols.toNat + 7) / 8)
        (fun p =>
          if p < s.cfg.ps.D * M.rows.toNat * M.cols.toNat then
            (M.entry (p / s.cfg.ps.D / M.cols.toNat)
              (p / s.cfg.ps.D % M.cols.toNat)).getLsbD (s.cfg.ps.D - 1 - p % s.cfg.ps.D)
          else false) s t

/-- `UNPACK`: entry `(i, j)` takes the `D` stream bits from `D·(i·n2 + j)` on, most significant first, and
nothing but `md` and `STATUS` changes (42_pack_unpack.md R160, R164). -/
def Obligations.UnpackReadsTheEntriesBitByBit : Prop :=
  ∀ (s : State) (md : MReg) (addr len : Word) (n1 n2 : BitVec 16),
    1 ≤ n1.toNat → n1.toNat ≤ s.cfg.ps.n → 1 ≤ n2.toNat → n2.toNat ≤ s.cfg.ps.n →
    (s.cfg.ps.D * n1.toNat * n2.toNat + 7) / 8 ≤ len.toNat →
    addr.toNat + len.toNat ≤ s.cfg.dmemSize →
    ∃ t P, exec (.unpack md addr len n1 n2) s = .next t ∧ MatrixCompletion md P s t ∧
      P.Shape n1.toNat n2.toNat ∧
      ∀ i j b, i < n1.toNat → j < n2.toNat → b < 16 →
        (P.entry i j).getLsbD b =
          if b < s.cfg.ps.D then
            getbit (s.dmem.readBytes addr.toNat ((s.cfg.ps.D * n1.toNat * n2.toNat + 7) / 8))
              (s.cfg.ps.D * (i * n2.toNat + j) + (s.cfg.ps.D - 1 - b))
          else false

/-- Round trip: `PACK` of a legal register, then `UNPACK` of the same bytes with its shape, leaves the
destination equal to the source, shape and every entry (42_pack_unpack.md R165). -/
def Obligations.UnpackOfPackIsTheMatrix : Prop :=
  ∀ (s : State) (ma md : MReg) (addr len : Word) (M : Machine.Matrix), s.dmem.wf = true →
    s.matrixAt ma = some M → M.Legal s.cfg.ps →
    len.toNat = (s.cfg.ps.D * M.rows.toNat * M.cols.toNat + 7) / 8 →
    addr.toNat + len.toNat ≤ s.cfg.dmemSize →
    ∃ s1 s2, exec (.pack addr len ma) s = .next s1 ∧
      exec (.unpack md addr len M.rows M.cols) s1 = .next s2 ∧ s2.err = 0 ∧
      s2.matrixAt md = s.matrixAt ma

/-- The other direction: `UNPACK` of a byte string, then `PACK`, gives the string with its pad bits
cleared, so the string itself exactly when its pad bits are zero. (An inference that the spec marks as its
own: 42_pack_unpack.md, "The other direction holds up to pad bits".) -/
def Obligations.PackOfUnpackClearsThePadBits : Prop :=
  ∀ (s : State) (md : MReg) (ain aout len : Word) (n1 n2 : BitVec 16), s.dmem.wf = true →
    1 ≤ n1.toNat → n1.toNat ≤ s.cfg.ps.n → 1 ≤ n2.toNat → n2.toNat ≤ s.cfg.ps.n →
    len.toNat = (s.cfg.ps.D * n1.toNat * n2.toNat + 7) / 8 →
    ain.toNat + len.toNat ≤ s.cfg.dmemSize → aout.toNat + len.toNat ≤ s.cfg.dmemSize →
    ∃ s1 s2, exec (.unpack md ain len n1 n2) s = .next s1 ∧
      exec (.pack aout len md) s1 = .next s2 ∧ s2.err = 0 ∧
      (∀ p, p < 8 * len.toNat →
        getbit (s2.dmem.readBytes aout.toNat len.toNat) p =
          (decide (p < s.cfg.ps.D * n1.toNat * n2.toNat) &&
            getbit (s.dmem.readBytes ain.toNat len.toNat) p)) ∧
      (s2.dmem.readBytes aout.toNat len.toNat = s.dmem.readBytes ain.toNat len.toNat ↔
        ∀ p, s.cfg.ps.D * n1.toNat * n2.toNat ≤ p → p < 8 * len.toNat →
          getbit (s.dmem.readBytes ain.toNat len.toNat) p = false)

/-- When `B = D`, `ENC` is `UNPACK` of shape `m` by `n_cols` on the same bytes, and `DEC` of a legal matrix
is `PACK`, state for state. (An inference that the spec marks as its own: 41_encode_decode.md, "When `B = D`,
ENC coincides with UNPACK of shape `m`×`n_cols` on the same bytes and DEC with PACK".) -/
def Obligations.EncodeIsUnpackWhenBitsFillTheElement : Prop :=
  ∀ (s : State) (mr : MReg) (addr len : Word), s.cfg.ps.B = s.cfg.ps.D →
    len.toNat = (s.cfg.ps.B * s.cfg.ps.m * s.cfg.ps.nCols + 7) / 8 →
    exec (.enc mr addr len) s =
      exec (.unpack mr addr len (BitVec.ofNat 16 s.cfg.ps.m) (BitVec.ofNat 16 s.cfg.ps.nCols)) s ∧
    ∀ M : Machine.Matrix, s.matrixAt mr = some M → M.Legal s.cfg.ps →
      M.rows.toNat = s.cfg.ps.m → M.cols.toNat = s.cfg.ps.nCols →
      exec (.dec addr len mr) s = exec (.pack addr len mr) s

end PackUnpack

section Generate

/-- The XOF gives exactly `L` bytes, and a shorter output is the beginning of a longer one. (43_gen_xof.md
section 4 gives the XOF from general knowledge only: notes/assumptions/10.md.) -/
def Obligations.XofOutputHasItsLengthAndExtends : Prop :=
  ∀ (x : Xof) (msg : List Byte) (L L' : Nat), L ≤ L' →
    (xofBytes x msg L).length = L ∧ xofBytes x msg L = (xofBytes x msg L').take L

/-- `GEN`: row `i` is the XOF of the big-endian row index followed by the seed, entry `j` its bytes `2j`
and `2j+1`, big-endian, modulo `2^D`; and nothing but `md` and `STATUS` changes (43_gen_xof.md R181,
R182). -/
def Obligations.GenExpandsTheSeedRowByRow : Prop :=
  ∀ (s : State) (md : MReg) (addr len : Word), len.toNat = s.cfg.ps.lenSeedA / 8 →
    addr.toNat + len.toNat ≤ s.cfg.dmemSize →
    ∃ t P, exec (.gen md addr len) s = .next t ∧ MatrixCompletion md P s t ∧
      P.Is s.cfg.ps.n s.cfg.ps.n fun i j =>
        let out := xofBytes s.cfg.ps.xof
          ([BitVec.ofNat 8 (i / 256), BitVec.ofNat 8 (i % 256)] ++
            s.dmem.readBytes addr.toNat len.toNat) (2 * s.cfg.ps.n)
        ((byteAt out (2 * j)).toNat * 256 + (byteAt out (2 * j + 1)).toNat) % 2 ^ s.cfg.ps.D

/-- Two `GEN` commands with the same seed bytes on instances with the same `PS` write identical matrices,
whatever else the two states hold (43_gen_xof.md R185). -/
def Obligations.GenDependsOnTheSeedAlone : Prop :=
  ∀ (s s' t t' : State) (md md' : MReg) (addr addr' len len' : Word), s.cfg.ps = s'.cfg.ps →
    (∀ k, k < s.cfg.ps.lenSeedA / 8 → s.dmem.read (addr.toNat + k) = s'.dmem.read (addr'.toNat + k)) →
    exec (.gen md addr len) s = .next t → exec (.gen md' addr' len') s' = .next t' →
    t.err = 0 → t'.err = 0 →
    (∃ P, t.matrixAt md = some P) ∧ t.matrixAt md = t'.matrixAt md'

end Generate

section Sample

/-- `SAMPLE_FN`, a free value, stays in the range that 44_sample.md R212 requires, for every instance and
every word. -/
def Obligations.SampleFnStaysInItsRange : Prop :=
  ∀ (c : Config) (w : BitVec 16),
    -(2 ^ (c.ps.D - 1) : Nat) ≤ c.sampleFn w ∧ c.sampleFn w < (2 ^ (c.ps.D - 1) : Nat)

/-- `SAMP`: entry `(i, j)` is `SAMPLE_FN` of the little-endian word `k = i·n2 + j` of the buffer, modulo
`2^D`; and nothing but `md` and `STATUS` changes (44_sample.md R211, R213). It holds for every value of
the free function `SAMPLE_FN`. -/
def Obligations.SampWritesTheResiduesOfTheSamples : Prop :=
  ∀ (s : State) (md : MReg) (addr len : Word) (n1 n2 : BitVec 16),
    1 ≤ n1.toNat → n1.toNat ≤ s.cfg.ps.n → 1 ≤ n2.toNat → n2.toNat ≤ s.cfg.ps.n →
    len.toNat = 2 * n1.toNat * n2.toNat → addr.toNat + len.toNat ≤ s.cfg.dmemSize →
    ∃ t P, exec (.samp md addr len n1 n2) s = .next t ∧ MatrixCompletion md P s t ∧
      P.Is n1.toNat n2.toNat fun i j =>
        (s.cfg.sampleFn (BitVec.ofNat 16
          ((s.dmem.read (addr.toNat + 2 * (i * n2.toNat + j))).toNat +
            256 * (s.dmem.read (addr.toNat + 2 * (i * n2.toNat + j) + 1)).toNat)) %
          (2 ^ s.cfg.ps.D : Nat)).toNat

/-- Entries are independent: if two memories agree on the two bytes of entry `(i, j)`, the two `SAMP`
commands write the same entry `(i, j)`, whatever the other bytes are (44_sample.md R214). -/
def Obligations.SampEntriesAreIndependent : Prop :=
  ∀ (s s' t t' : State) (md : MReg) (addr len : Word) (n1 n2 : BitVec 16) (P P' : Machine.Matrix)
    (i j : Nat), s.cfg = s'.cfg → i < n1.toNat → j < n2.toNat →
    s.dmem.read (addr.toNat + 2 * (i * n2.toNat + j)) =
      s'.dmem.read (addr.toNat + 2 * (i * n2.toNat + j)) →
    s.dmem.read (addr.toNat + 2 * (i * n2.toNat + j) + 1) =
      s'.dmem.read (addr.toNat + 2 * (i * n2.toNat + j) + 1) →
    exec (.samp md addr len n1 n2) s = .next t → exec (.samp md addr len n1 n2) s' = .next t' →
    t.err = 0 → t.matrixAt md = some P → t'.matrixAt md = some P' →
    t'.err = 0 ∧ P.entry i j = P'.entry i j

end Sample

section Clear

/-- `CLR` completes on any register, valid or not, makes it invalid and changes nothing else but
`STATUS`; then its `MRSHAPE` reads 0 (45_control.md R226). -/
def Obligations.ClrInvalidatesOneRegister : Prop :=
  ∀ (s : State) (md : MReg),
    ∃ t, exec (.clr md) s = .next t ∧ t.matrixAt md = none ∧ StatusCompleted s t ∧
      MatricesKeptBut md s t ∧ MemoryKept s t ∧ RegistersKept s t ∧
      t.readReg (0x10 + md.toBits.toNat) = 0

end Clear

section Errors

/-- A command that names an invalid register as a source ends with `UninitRegister`, before any other
validation of its operands; the destination is never checked: whether a register that is no source is
valid makes no difference to the code the command ends with, and `CLR` of an invalid register succeeds
(60_exceptions.md R233). -/
def Obligations.InvalidSourceEndsWithUninitRegister : Prop :=
  (∀ (i : Instr) (s : State), (∃ r ∈ sources i, s.matrixAt r = none) →
    ∃ t, exec i s = .next t ∧ ErrorCompletion .uninitRegister s t) ∧
  (∀ (i : Instr) (s t t' : State) (r : MReg) (v : Option Machine.Matrix), r ∉ sources i →
    exec i s = .next t →
    exec i { s with mr := s.mr.set r v } = .next t' → t'.err = t.err) ∧
  (∀ (s : State) (md : MReg), s.matrixAt md = none →
    ∃ t, exec (.clr md) s = .next t ∧ t.err = 0 ∧ t.matrixAt md = none)

/-- The length and shape errors, each raised before the range check, so whatever the address is
(60_exceptions.md R231, R238). -/
def Obligations.WrongLengthEndsWithItsError : Prop :=
  ∀ (s : State) (mr : MReg) (addr len : Word) (n1 n2 : BitVec 16) (M : Machine.Matrix),
    (len.toNat ≠ (s.cfg.ps.B * s.cfg.ps.m * s.cfg.ps.nCols + 7) / 8 →
      ∃ t, exec (.enc mr addr len) s = .next t ∧ ErrorCompletion .invalidInputLength s t) ∧
    (s.matrixAt mr = some M →
      ¬ (M.rows.toNat = s.cfg.ps.m ∧ M.cols.toNat = s.cfg.ps.nCols) →
      ∃ t, exec (.dec addr len mr) s = .next t ∧ ErrorCompletion .dimensionMismatch s t) ∧
    (s.matrixAt mr = some M → M.rows.toNat = s.cfg.ps.m → M.cols.toNat = s.cfg.ps.nCols →
      len.toNat ≠ (s.cfg.ps.B * s.cfg.ps.m * s.cfg.ps.nCols + 7) / 8 →
      ∃ t, exec (.dec addr len mr) s = .next t ∧ ErrorCompletion .invalidInputLength s t) ∧
    (s.matrixAt mr = some M →
      len.toNat < (s.cfg.ps.D * M.rows.toNat * M.cols.toNat + 7) / 8 →
      ∃ t, exec (.pack addr len mr) s = .next t ∧ ErrorCompletion .invalidBufferLength s t) ∧
    (1 ≤ n1.toNat ∧ n1.toNat ≤ s.cfg.ps.n → 1 ≤ n2.toNat ∧ n2.toNat ≤ s.cfg.ps.n →
      len.toNat < (s.cfg.ps.D * n1.toNat * n2.toNat + 7) / 8 →
      ∃ t, exec (.unpack mr addr len n1 n2) s = .next t ∧
        ErrorCompletion .invalidBufferLength s t) ∧
    (len.toNat ≠ s.cfg.ps.lenSeedA / 8 →
      ∃ t, exec (.gen mr addr len) s = .next t ∧ ErrorCompletion .invalidSeedLength s t) ∧
    (1 ≤ n1.toNat ∧ n1.toNat ≤ s.cfg.ps.n → 1 ≤ n2.toNat ∧ n2.toNat ≤ s.cfg.ps.n →
      len.toNat ≠ 2 * n1.toNat * n2.toNat →
      ∃ t, exec (.samp mr addr len n1 n2) s = .next t ∧ ErrorCompletion .invalidBufferLength s t)

/-- The range check of the six commands with a byte buffer: the last check, over the whole declared
buffer, its sum in unbounded integers (20_memory.md R65). -/
def Obligations.BufferOutsideMemoryEndsWithAddressRange : Prop :=
  ∀ (s : State) (mr : MReg) (addr len : Word) (n1 n2 : BitVec 16) (M : Machine.Matrix) (i : Instr),
    ((i = .enc mr addr len ∧ len.toNat = (s.cfg.ps.B * s.cfg.ps.m * s.cfg.ps.nCols + 7) / 8) ∨
      (i = .dec addr len mr ∧ s.matrixAt mr = some M ∧ M.rows.toNat = s.cfg.ps.m ∧
        M.cols.toNat = s.cfg.ps.nCols ∧
        len.toNat = (s.cfg.ps.B * s.cfg.ps.m * s.cfg.ps.nCols + 7) / 8) ∨
      (i = .pack addr len mr ∧ s.matrixAt mr = some M ∧
        (s.cfg.ps.D * M.rows.toNat * M.cols.toNat + 7) / 8 ≤ len.toNat) ∨
      (i = .unpack mr addr len n1 n2 ∧ (1 ≤ n1.toNat ∧ n1.toNat ≤ s.cfg.ps.n) ∧
        (1 ≤ n2.toNat ∧ n2.toNat ≤ s.cfg.ps.n) ∧
        (s.cfg.ps.D * n1.toNat * n2.toNat + 7) / 8 ≤ len.toNat) ∨
      (i = .gen mr addr len ∧ len.toNat = s.cfg.ps.lenSeedA / 8) ∨
      (i = .samp mr addr len n1 n2 ∧ (1 ≤ n1.toNat ∧ n1.toNat ≤ s.cfg.ps.n) ∧
        (1 ≤ n2.toNat ∧ n2.toNat ≤ s.cfg.ps.n) ∧ len.toNat = 2 * n1.toNat * n2.toNat)) →
    ∃ t, exec i s = .next t ∧
      (addr.toNat + len.toNat ≤ s.cfg.dmemSize → t.err = 0) ∧
      (s.cfg.dmemSize < addr.toNat + len.toNat → ErrorCompletion .addressRange s t)

/-- An error completion writes the code to `STATUS.ERR`, sets its bit of `ESTICKY`, and changes nothing
else: no matrix register, no byte of `DMEM`, no holding register (60_exceptions.md R236). -/
def Obligations.ErrorChangesNothingButStatus : Prop :=
  ∀ (s t : State) (d : Descriptor), s.issue d = .next t → t.err ≠ 0 →
    ∃ e : ErrorCode, ErrorCompletion e s t

/-- A command that ends with code `k` ≥ 1 sets bit `k` of `ESTICKY` and leaves the others, one that ends
without error leaves all of them, and no move of the host but a reset clears a bit (10_state.md R35). -/
def Obligations.EstickyAccumulatesUntilReset : Prop :=
  (∀ (s t : State) (d : Descriptor), s.issue d = .next t →
    (t.err = 0 → t.esticky = s.esticky) ∧
    (t.err ≠ 0 → ∀ k, k < 8 →
      t.esticky.getLsbD k = (s.esticky.getLsbD k || decide (k = t.err.toNat)))) ∧
  ∀ (s t : State), step s = .next t → (∀ c rest, s.host ≠ .reset c :: rest) →
    ∀ k, s.esticky.getLsbD k = true → t.esticky.getLsbD k = true

/-- The codes each command can end with, and code 5 alone for an undefined opcode. (An inference that the
spec marks as its own: 60_exceptions.md, "Which errors each command can end with, collected".) -/
def Obligations.CommandEndsWithAPossibleCode : Prop :=
  ∀ (s t : State) (d : Descriptor), s.issue d = .next t →
    t.err.toNat ∈ possibleErrors (d.w0.toNat / 2 ^ 24)

/-- Every descriptor is executed to its end: the block answers a next state, never a stop
(30_encoding.md R92, 70_reset_and_hazards.md R272). -/
def Obligations.EveryDescriptorIsExecutedToItsEnd : Prop :=
  ∀ (s : State) (d : Descriptor), ∃ t, s.issue d = .next t

end Errors

section ControlWindow

/-- The moves of the host, one by one: what each changes, what each returns, and that nothing else
changes (20_memory.md section 3; 70_reset_and_hazards.md section 1). The list of moves and the reply are the
model's own (its choice, notes/assumptions/5.md); that the coming moves stay in the list over a reset and
that the reply becomes `nothing` is the model's choice too (notes/assumptions/8.md). -/
def Obligations.HostMovesDoWhatTheTableSays : Prop :=
  ∀ (s : State) (rest : List HostAction), s.dmem.wf = true →
    (∀ a v, s.host = .writeByte a v :: rest → a < s.cfg.dmemSize →
      ∃ t, step s = .next t ∧ t.dmem.read a = v ∧
        (∀ b, b ≠ a → t.dmem.read b = s.dmem.read b) ∧
        t = { s.takeMove rest with dmem := t.dmem }) ∧
    (∀ a, s.host = .readByte a :: rest → a < s.cfg.dmemSize →
      step s = .next { s with host := rest, reply := .byte (s.dmem.read a) }) ∧
    (∀ w, s.host = .writeReg 0x02 w :: rest →
      step s = .next { s with host := rest, reply := .nothing, cmd1 := w }) ∧
    (∀ w, s.host = .writeReg 0x03 w :: rest →
      step s = .next { s with host := rest, reply := .nothing, cmd2 := w }) ∧
    (∀ w, s.host = .writeReg 0x04 w :: rest →
      step s = .next { s with host := rest, reply := .nothing, cmd3 := w }) ∧
    (∀ w, s.host = .writeReg 0x01 w :: rest →
      step s = (s.takeMove rest).issue ⟨w, s.cmd1, s.cmd2, s.cmd3⟩) ∧
    (∀ r w, s.host = .writeReg r w :: rest → r ∉ [0x01, 0x02, 0x03, 0x04] →
      step s = .next { s with host := rest, reply := .nothing }) ∧
    (∀ r, s.host = .readReg r :: rest →
      step s = .next { s with host := rest, reply := .word (s.readReg r) }) ∧
    (∀ c, s.host = .reset c :: rest →
      step s = .next { State.afterReset s.cfg c with host := rest })

/-- Each of `CMD1`, `CMD2`, `CMD3` holds the last value written, all 32 bits of it, and 0 if none since
reset: a write of it sets it and leaves the other two, a reset sets all three to 0, no command changes any
of them, and every other step, whatever the host's move (or none), leaves it as it was (10_state.md
R37). -/
def Obligations.HoldingRegistersHoldTheLastValue : Prop :=
  (∀ (s : State) (r : Nat) (w : Word) (rest : List HostAction), r ∈ [0x02, 0x03, 0x04] →
    s.host = .writeReg r w :: rest →
    ∃ t, step s = .next t ∧ t.readReg r = w ∧
      ∀ r' ∈ [0x02, 0x03, 0x04], r' ≠ r → t.readReg r' = s.readReg r') ∧
  (∀ (c : Config) (contents : Nat), ∀ r ∈ [0x02, 0x03, 0x04],
    (State.afterReset c contents).readReg r = 0) ∧
  (∀ (s : State) (c : Nat) (rest : List HostAction), s.host = .reset c :: rest →
    ∃ t, step s = .next t ∧ ∀ r ∈ [0x02, 0x03, 0x04], t.readReg r = 0) ∧
  (∀ (s t : State) (d : Descriptor), s.issue d = .next t →
    ∀ r ∈ [0x02, 0x03, 0x04], t.readReg r = s.readReg r) ∧
  ∀ (s t : State) (r : Nat), r ∈ [0x02, 0x03, 0x04] → step s = .next t →
    (∀ c rest, s.host ≠ .reset c :: rest) → (∀ w rest, s.host ≠ .writeReg r w :: rest) →
    t.readReg r = s.readReg r

/-- `PARAM_*` and `DMEMSZ` return the configuration, are constant under every step, ignore writes, and
have the values 10_state.md R38 gives for FRODO-640 with `DMEM_SIZE = 0x100000`. -/
def Obligations.ParamRegistersAreConstant : Prop :=
  (∀ s : State,
    (s.readReg 0x08).toNat = s.cfg.ps.n ∧
    (s.readReg 0x09).toNat = s.cfg.ps.D + 256 * s.cfg.ps.B +
      65536 * (if s.cfg.ps.xof = .shake128 then 0 else 1) ∧
    (s.readReg 0x0A).toNat = 65536 * s.cfg.ps.m + s.cfg.ps.nCols ∧
    (s.readReg 0x0B).toNat = s.cfg.ps.l ∧
    (s.readReg 0x0C).toNat = 65536 * s.cfg.ps.lenSeedSE + s.cfg.ps.lenSeedA ∧
    (s.readReg 0x0D).toNat = s.cfg.dmemSize) ∧
  (∀ (s t : State), step s = .next t →
    ∀ r ∈ [0x08, 0x09, 0x0A, 0x0B, 0x0C, 0x0D], t.readReg r = s.readReg r) ∧
  (∀ (s : State) (r : Nat) (w : Word) (rest : List HostAction),
    r ∈ [0x08, 0x09, 0x0A, 0x0B, 0x0C, 0x0D] → s.host = .writeReg r w :: rest →
    step s = .next { s with host := rest, reply := .nothing }) ∧
  ∀ s : State,
    s.cfg.ps.toParams = { ParamSet.frodo640.toParams with lenSeedSE := s.cfg.ps.lenSeedSE } →
    s.cfg.dmemSize = 0x100000 →
    s.readReg 0x08 = 0x00000280 ∧ s.readReg 0x09 = 0x0000020F ∧ s.readReg 0x0A = 0x00080008 ∧
    s.readReg 0x0B = 0x00000080 ∧ (s.readReg 0x0C).extractLsb' 0 16 = 0x0080 ∧
    s.readReg 0x0D = 0x00100000

/-- `STATUS`: `ERR` in bits [2:0], `ESTICKY` bit `k` in bit `8+k` for `k = 1` to `7`, all other bits 0, and
a write to it is ignored (10_state.md R33). -/
def Obligations.StatusHasItsLayout : Prop :=
  (∀ (s : State) (b : Nat), b < 32 →
    (s.readReg 0x00).getLsbD b =
      if b < 3 then s.err.getLsbD b
      else if 9 ≤ b ∧ b < 16 then s.esticky.getLsbD (b - 8)
      else false) ∧
  ∀ (s : State) (w : Word) (rest : List HostAction), s.host = .writeReg 0x00 w :: rest →
    step s = .next { s with host := rest, reply := .nothing }

/-- `MRSHAPE[k]`: rows in [31:16] and columns in [15:0] of a valid register, 0 for an invalid one; in a
state that keeps the invariant, 0 means invalid and nothing else; writes are ignored; and after `GEN m0`
on FRODO-640 it is `0x02800280` (10_state.md R40). -/
def Obligations.MrShapeShowsShapeAndValidity : Prop :=
  (∀ (s : State) (r : MReg) (M : Machine.Matrix), s.matrixAt r = some M →
    (s.readReg (0x10 + r.toBits.toNat)).extractLsb' 16 16 = M.rows ∧
    (s.readReg (0x10 + r.toBits.toNat)).extractLsb' 0 16 = M.cols) ∧
  (∀ (s : State) (r : MReg), s.matrixAt r = none → s.readReg (0x10 + r.toBits.toNat) = 0) ∧
  (∀ (s : State) (r : MReg), s.Inv →
    (s.readReg (0x10 + r.toBits.toNat) = 0 ↔ s.matrixAt r = none)) ∧
  (∀ (s : State) (r : MReg) (w : Word) (rest : List HostAction),
    s.host = .writeReg (0x10 + r.toBits.toNat) w :: rest →
    step s = .next { s with host := rest, reply := .nothing }) ∧
  ∀ (s t : State) (addr len : Word), s.cfg.ps.n = 640 →
    exec (.gen .m0 addr len) s = .next t → t.err = 0 → t.readReg 0x10 = 0x02800280

/-- A read of an undefined register number returns 0; a write to one, or to a read-only register, has no
effect and raises nothing; neither touches `STATUS` (10_state.md R41). A read of `CMD0`, which is
write-only and stores nothing, returns 0 as well (10_state.md R36, in part). -/
def Obligations.UndefinedRegistersReadZeroAndIgnoreWrites : Prop :=
  (∀ (s : State) (r : Nat) (rest : List HostAction),
    r ∈ [0x05, 0x06, 0x07, 0x0E, 0x0F] ∨ 0x18 ≤ r → s.host = .readReg r :: rest →
    step s = .next { s with host := rest, reply := .word 0 }) ∧
  (∀ (s : State) (rest : List HostAction), s.host = .readReg 0x01 :: rest →
    step s = .next { s with host := rest, reply := .word 0 }) ∧
  ∀ (s : State) (r : Nat) (w : Word) (rest : List HostAction),
    r ∉ [0x01, 0x02, 0x03, 0x04] → s.host = .writeReg r w :: rest →
    step s = .next { s with host := rest, reply := .nothing }

/-- The host cannot see or set an entry: between two states that differ only in the entries of registers
of equal shapes, every move but the issue of a command returns the same, and no such move changes a
matrix register, except that a reset makes all of them invalid (10_state.md R27). -/
def Obligations.HostCannotReachTheEntries : Prop :=
  ∀ (s s' t t' : State) (a : HostAction) (rest : List HostAction),
    s' = { s with mr := s'.mr } → (∀ r, SameShape (s.matrixAt r) (s'.matrixAt r)) →
    s.host = a :: rest → (∀ w, a ≠ .writeReg 0x01 w) →
    step s = .next t → step s' = .next t' →
    t.reply = t'.reply ∧ t.err = t'.err ∧ (∀ b, t.dmem.read b = t'.dmem.read b) ∧
    (MatricesKept s t ∨ ∃ c, a = .reset c ∧ ∀ r, t.matrixAt r = none)

end ControlWindow

section WholeMachine

/-- THE INVARIANT IS KEPT BY EVERY STEP: legal register values (10_state.md R22, R23), canonical memory
inside `DMEM` (20_memory.md R60), bit 0 of `ESTICKY` at 0 (10_state.md R33), and the reported error
recorded (10_state.md R34, R35). -/
def Obligations.EveryStepKeepsTheInvariant : Prop :=
  ∀ s t : State, s.Inv → step s = .next t → t.Inv

/-- The invariant holds right after reset, for every instance and every contents of `DMEM`, and for
`State.reset`. -/
def Obligations.InvariantHoldsAfterReset : Prop :=
  (∀ (c : Config) (contents : Nat), (State.afterReset c contents).Inv) ∧ State.reset.Inv

/-- No step changes the configuration of the instance, a reset not either (00_scope.md R6,
70_reset_and_hazards.md R261). -/
def Obligations.ConfigurationNeverChanges : Prop :=
  ∀ s t : State, step s = .next t → t.cfg = s.cfg

/-- The state after reset: registers invalid, `STATUS` and the holding registers 0, every `MRSHAPE` 0, the
constants as configured; and `DMEM` can hold any contents whatever (10_state.md R46). -/
def Obligations.ResetLeavesTheTabledState : Prop :=
  (∀ (c : Config) (contents : Nat),
    (∀ r, (State.afterReset c contents).matrixAt r = none) ∧
    (State.afterReset c contents).readReg 0x00 = 0 ∧
    (∀ r ∈ [0x02, 0x03, 0x04], (State.afterReset c contents).readReg r = 0) ∧
    (∀ k, k < 8 → (State.afterReset c contents).readReg (0x10 + k) = 0) ∧
    ∀ s : State, s.cfg = c → ∀ r ∈ [0x08, 0x09, 0x0A, 0x0B, 0x0C, 0x0D],
      (State.afterReset c contents).readReg r = s.readReg r) ∧
  ∀ (c : Config) (f : Nat → Byte), ∃ contents, ∀ a, a < c.dmemSize →
    (State.afterReset c contents).dmem.read a = f a

/-- A reset makes all eight matrix registers invalid, and what they held is not reachable afterwards: the
state after the reset move does not depend on it (10_state.md R29). -/
def Obligations.ResetForgetsTheMatrices : Prop :=
  (∀ (s : State) (c : Nat) (rest : List HostAction), s.host = .reset c :: rest →
    ∃ t, step s = .next t ∧ ∀ r, t.matrixAt r = none) ∧
  ∀ (s s' : State) (c : Nat) (rest : List HostAction), s.host = .reset c :: rest →
    s' = { s with mr := s'.mr } → step s' = step s

/-- A reset clears `ESTICKY` and makes the matrix registers invalid; nothing else clears `ESTICKY`, and
nothing but a reset or `CLR` of that register makes a valid register invalid (70_reset_and_hazards.md
R263). -/
def Obligations.OnlyResetAndClrInvalidate : Prop :=
  (∀ (s : State) (c : Nat) (rest : List HostAction), s.host = .reset c :: rest →
    ∃ t, step s = .next t ∧ t.esticky = 0 ∧ ∀ r, t.matrixAt r = none) ∧
  (∀ (s t : State), step s = .next t → s.esticky ≠ 0 → t.esticky = 0 →
    ∃ c rest, s.host = .reset c :: rest) ∧
  ∀ (s t : State) (r : MReg), step s = .next t → s.matrixAt r ≠ none → t.matrixAt r = none →
    (∃ c rest, s.host = .reset c :: rest) ∨
    ∃ w rest, s.host = .writeReg 0x01 w :: rest ∧
      decode ⟨w, s.cmd1, s.cmd2, s.cmd3⟩ = .ok (.clr r)

/-- A command is a function of what it reads: between two states of one configuration that agree on its
source registers and on the bytes it reads, it ends with the same code, writes the same register value
or bytes, and leaves alike what was alike: each matrix register, each byte of memory, `ESTICKY` and each
holding register (70_reset_and_hazards.md R272, 10_state.md R26, R45). -/
def Obligations.CommandDependsOnlyOnWhatItReads : Prop :=
  ∀ (i : Instr) (s s' t t' : State), s.cfg = s'.cfg → s.dmem.wf = true → s'.dmem.wf = true →
    (∀ r ∈ sources i, s.matrixAt r = s'.matrixAt r) →
    (∀ k, k < (inputRange s.cfg.ps i).2 →
      s.dmem.read ((inputRange s.cfg.ps i).1 + k) = s'.dmem.read ((inputRange s.cfg.ps i).1 + k)) →
    exec i s = .next t → exec i s' = .next t' →
    t.err = t'.err ∧
    (∀ r, s.matrixAt r = s'.matrixAt r → t.matrixAt r = t'.matrixAt r) ∧
    (∀ a, s.dmem.read a = s'.dmem.read a → t.dmem.read a = t'.dmem.read a) ∧
    (s.esticky = s'.esticky → t.esticky = t'.esticky) ∧ (s.cmd1 = s'.cmd1 → t.cmd1 = t'.cmd1) ∧
    (s.cmd2 = s'.cmd2 → t.cmd2 = t'.cmd2) ∧ (s.cmd3 = s'.cmd3 → t.cmd3 = t'.cmd3) ∧
    (t.err = 0 →
      (∀ r, destination i = some r → t.matrixAt r = t'.matrixAt r) ∧
      ∀ k, k < (outputRange s i).2 →
        t.dmem.read ((outputRange s i).1 + k) = t'.dmem.read ((outputRange s i).1 + k))

/-- A step of a move that the block has answers a next state; a `DMEM` access outside the block, and
nothing else, stops the model (20_memory.md R68; the model's choice, notes/assumptions/7.md); with no
move pending the block holds its state (60_exceptions.md R253; the model's choice,
notes/assumptions/5.md). -/
def Obligations.StepStopsOnlyOutsideTheBlock : Prop :=
  ∀ s : State,
    (s.host = [] → step s = .next s) ∧
    (∀ a rest, s.host = a :: rest → a.inBlock s.cfg = true → ∃ t, step s = .next t) ∧
    (∀ a v rest, s.host = .writeByte a v :: rest → s.cfg.dmemSize ≤ a →
      step s = .fault (.outsideDmem a)) ∧
    (∀ a rest, s.host = .readByte a :: rest → s.cfg.dmemSize ≤ a →
      step s = .fault (.outsideDmem a))

end WholeMachine
end

