-- ==== Sys2Proof/Laws/Bits.lean ====
section
/-! SUPPORT. The laws of bit streams (00_scope.md R12): what the bits of `bits_be` are, and that
`getbit` reads what `putbits` wrote. -/

namespace Sys2Proof.Machine

theorem bitsOf_lt (f : Nat → Bool) (p w : Nat) : bitsOf f p w < 2 ^ w := by
  induction w with
  | zero => simp [bitsOf]
  | succ w ih =>
    have : (f (p + w)).toNat ≤ 1 := Bool.toNat_le _
    rw [bitsOf, Nat.pow_succ]
    omega

/-- The first of the `w` bits is the most significant (R12). -/
theorem testBit_bitsOf (f : Nat → Bool) (p w k : Nat) :
    (bitsOf f p w).testBit k = (decide (k < w) && f (p + (w - 1 - k))) := by
  induction w generalizing k with
  | zero => simp [bitsOf]
  | succ w ih =>
    have split2 : bitsOf f p (w + 1) = 2 * bitsOf f p w + (f (p + w)).toNat := rfl
    cases k with
    | zero =>
      have h : p + (w + 1 - 1 - 0) = p + w := by omega
      rw [split2, Nat.testBit_zero, h]
      cases f (p + w) <;> simp [Nat.add_mod]
    | succ k =>
      rw [Nat.testBit_succ, split2]
      have : (2 * bitsOf f p w + (f (p + w)).toNat) / 2 = bitsOf f p w := by
        have : (f (p + w)).toNat ≤ 1 := Bool.toNat_le _
        omega
      rw [this, ih]
      by_cases hk : k < w
      · simp [hk]; congr 1; omega
      · simp [hk]

theorem bitsOf_congr {f g : Nat → Bool} {p q w : Nat} (h : ∀ t, t < w → f (p + t) = g (q + t)) :
    bitsOf f p w = bitsOf g q w := by
  induction w with
  | zero => rfl
  | succ w ih =>
    rw [bitsOf, bitsOf, ih fun t ht => h t (by omega), h w (by omega)]

@[simp] theorem putbits_length (N : Nat) (f : Nat → Bool) : (putbits N f).length = N := by
  simp [putbits]

/-- `getbit(putbits(N, f), p) = f(p)` for every `p < 8N` (R12). -/
theorem getbit_putbits {N p : Nat} (f : Nat → Bool) (hp : p < 8 * N) :
    getbit (putbits N f) p = f p := by
  have hk : p / 8 < N := by omega
  unfold getbit byteAt putbits
  rw [List.getD_eq_getElem _ _ (by simpa using hk)]
  simp only [List.getElem_map, List.getElem_range, BitVec.getLsbD_ofNat, testBit_bitsOf]
  have h1 : 7 - p % 8 < 8 := by omega
  have h2 : 8 * (p / 8) + (8 - 1 - (7 - p % 8)) = p := by omega
  simp [h1, h2]

/-- A byte string is determined by its length and its bit stream (R12). -/
theorem bytes_ext {s t : List Byte} (hl : s.length = t.length)
    (h : ∀ p, p < 8 * s.length → getbit s p = getbit t p) : s = t := by
  refine List.ext_getElem hl fun k h1 h2 => ?_
  refine BitVec.eq_of_getLsbD_eq fun i hi => ?_
  have := h (8 * k + (7 - i)) (by omega)
  unfold getbit byteAt at this
  rw [show (8 * k + (7 - i)) / 8 = k by omega,
    show 7 - (8 * k + (7 - i)) % 8 = i by omega,
    List.getD_eq_getElem _ _ h1, List.getD_eq_getElem _ _ h2] at this
  exact this

theorem bitsBe_lt (s : List Byte) (p w : Nat) : bitsBe s p w < 2 ^ w := bitsOf_lt _ _ _

/-- The bits of `bits_be(s, p, w)`: bit `w - 1 - t` is stream bit `p + t` (R12). -/
theorem testBit_bitsBe (s : List Byte) (p w k : Nat) :
    (bitsBe s p w).testBit k = (decide (k < w) && getbit s (p + (w - 1 - k))) :=
  testBit_bitsOf _ _ _ _

/-- A number below `2^w` is the one whose bits, first most significant, it has. -/
theorem bitsOf_testBit {v w : Nat} (hv : v < 2 ^ w) :
    bitsOf (fun t => v.testBit (w - 1 - t)) 0 w = v := by
  refine Nat.eq_of_testBit_eq fun k => ?_
  rw [testBit_bitsOf]
  by_cases hk : k < w
  · simp only [hk, decide_true, Bool.true_and]
    congr 1
    omega
  · simp only [hk, decide_false, Bool.false_and]
    exact (Nat.testBit_lt_two_pow (lt_of_lt_of_le hv (Nat.pow_le_pow_right (by omega) (by omega)))).symm

theorem bytesFor_spec (b : Nat) : b ≤ 8 * bytesFor b ∧ 8 * bytesFor b < b + 8 := by
  unfold bytesFor; omega

end Sys2Proof.Machine
end

