-- ==== Sys2Proof/Laws/State.lean ====
section
/-! SUPPORT. One lemma per field per update of the state, so that no later proof unfolds a record
update; and the register file's read-after-write law. -/

namespace Sys2Proof.Machine

section Registers

/-- A register reads what was last written to it; writing one register leaves the others alone. -/
theorem MatrixRegs.get_set (m : MatrixRegs) (d r : MReg) (v : Option Matrix) :
    (m.set d v).get r = if r = d then v else m.get r := by
  cases d <;> cases r <;> rfl

@[simp] theorem MatrixRegs.get_set_same (m : MatrixRegs) (d : MReg) (v : Option Matrix) :
    (m.set d v).get d = v := by simp [MatrixRegs.get_set]

theorem MatrixRegs.get_set_other {m : MatrixRegs} {d r : MReg} {v : Option Matrix} (h : r ≠ d) :
    (m.set d v).get r = m.get r := by simp [MatrixRegs.get_set, h]

@[simp] theorem MatrixRegs.get_allInvalid (r : MReg) : MatrixRegs.allInvalid.get r = none := by
  cases r <;> rfl

end Registers

section WriteMatrix
variable (s : State) (d : MReg) (M : Matrix)

theorem State.writeMatrix_matrixAt (r : MReg) :
    (s.writeMatrix d M).matrixAt r = if r = d then some M else s.matrixAt r :=
  MatrixRegs.get_set _ _ _ _

@[simp] theorem State.writeMatrix_cfg : (s.writeMatrix d M).cfg = s.cfg := rfl
@[simp] theorem State.writeMatrix_dmem : (s.writeMatrix d M).dmem = s.dmem := rfl
@[simp] theorem State.writeMatrix_err : (s.writeMatrix d M).err = s.err := rfl
@[simp] theorem State.writeMatrix_esticky : (s.writeMatrix d M).esticky = s.esticky := rfl
@[simp] theorem State.writeMatrix_cmd1 : (s.writeMatrix d M).cmd1 = s.cmd1 := rfl
@[simp] theorem State.writeMatrix_cmd2 : (s.writeMatrix d M).cmd2 = s.cmd2 := rfl
@[simp] theorem State.writeMatrix_cmd3 : (s.writeMatrix d M).cmd3 = s.cmd3 := rfl
@[simp] theorem State.writeMatrix_host : (s.writeMatrix d M).host = s.host := rfl
@[simp] theorem State.writeMatrix_reply : (s.writeMatrix d M).reply = s.reply := rfl

end WriteMatrix

section Invalidate
variable (s : State) (d : MReg)

theorem State.invalidate_matrixAt (r : MReg) :
    (s.invalidate d).matrixAt r = if r = d then none else s.matrixAt r :=
  MatrixRegs.get_set _ _ _ _

@[simp] theorem State.invalidate_cfg : (s.invalidate d).cfg = s.cfg := rfl
@[simp] theorem State.invalidate_dmem : (s.invalidate d).dmem = s.dmem := rfl
@[simp] theorem State.invalidate_err : (s.invalidate d).err = s.err := rfl
@[simp] theorem State.invalidate_esticky : (s.invalidate d).esticky = s.esticky := rfl
@[simp] theorem State.invalidate_cmd1 : (s.invalidate d).cmd1 = s.cmd1 := rfl
@[simp] theorem State.invalidate_cmd2 : (s.invalidate d).cmd2 = s.cmd2 := rfl
@[simp] theorem State.invalidate_cmd3 : (s.invalidate d).cmd3 = s.cmd3 := rfl
@[simp] theorem State.invalidate_host : (s.invalidate d).host = s.host := rfl
@[simp] theorem State.invalidate_reply : (s.invalidate d).reply = s.reply := rfl

end Invalidate

section StoreBytes
variable (s : State) (addr : Nat) (bs : List Byte)

@[simp] theorem State.storeBytes_mr : (s.storeBytes addr bs).mr = s.mr := rfl
@[simp] theorem State.storeBytes_matrixAt (r : MReg) :
    (s.storeBytes addr bs).matrixAt r = s.matrixAt r := rfl
@[simp] theorem State.storeBytes_dmem :
    (s.storeBytes addr bs).dmem = s.dmem.writeBytes addr bs := rfl
@[simp] theorem State.storeBytes_cfg : (s.storeBytes addr bs).cfg = s.cfg := rfl
@[simp] theorem State.storeBytes_err : (s.storeBytes addr bs).err = s.err := rfl
@[simp] theorem State.storeBytes_esticky : (s.storeBytes addr bs).esticky = s.esticky := rfl
@[simp] theorem State.storeBytes_cmd1 : (s.storeBytes addr bs).cmd1 = s.cmd1 := rfl
@[simp] theorem State.storeBytes_cmd2 : (s.storeBytes addr bs).cmd2 = s.cmd2 := rfl
@[simp] theorem State.storeBytes_cmd3 : (s.storeBytes addr bs).cmd3 = s.cmd3 := rfl
@[simp] theorem State.storeBytes_host : (s.storeBytes addr bs).host = s.host := rfl
@[simp] theorem State.storeBytes_reply : (s.storeBytes addr bs).reply = s.reply := rfl

end StoreBytes

section Raise
variable (s : State) (e : ErrorCode)

@[simp] theorem State.raise_err : (s.raise e).err = e.code := rfl
@[simp] theorem State.raise_esticky : (s.raise e).esticky = stickyAfter s.esticky e := rfl
@[simp] theorem State.raise_mr : (s.raise e).mr = s.mr := rfl
@[simp] theorem State.raise_matrixAt (r : MReg) : (s.raise e).matrixAt r = s.matrixAt r := rfl
@[simp] theorem State.raise_dmem : (s.raise e).dmem = s.dmem := rfl
@[simp] theorem State.raise_cfg : (s.raise e).cfg = s.cfg := rfl
@[simp] theorem State.raise_cmd1 : (s.raise e).cmd1 = s.cmd1 := rfl
@[simp] theorem State.raise_cmd2 : (s.raise e).cmd2 = s.cmd2 := rfl
@[simp] theorem State.raise_cmd3 : (s.raise e).cmd3 = s.cmd3 := rfl
@[simp] theorem State.raise_host : (s.raise e).host = s.host := rfl
@[simp] theorem State.raise_reply : (s.raise e).reply = s.reply := rfl

end Raise

section Complete
variable (s : State)

@[simp] theorem State.complete_err : s.complete.err = 0 := rfl
@[simp] theorem State.complete_esticky : s.complete.esticky = s.esticky := rfl
@[simp] theorem State.complete_mr : s.complete.mr = s.mr := rfl
@[simp] theorem State.complete_matrixAt (r : MReg) : s.complete.matrixAt r = s.matrixAt r := rfl
@[simp] theorem State.complete_dmem : s.complete.dmem = s.dmem := rfl
@[simp] theorem State.complete_cfg : s.complete.cfg = s.cfg := rfl
@[simp] theorem State.complete_cmd1 : s.complete.cmd1 = s.cmd1 := rfl
@[simp] theorem State.complete_cmd2 : s.complete.cmd2 = s.cmd2 := rfl
@[simp] theorem State.complete_cmd3 : s.complete.cmd3 = s.cmd3 := rfl
@[simp] theorem State.complete_host : s.complete.host = s.host := rfl
@[simp] theorem State.complete_reply : s.complete.reply = s.reply := rfl

end Complete

section TakeMove
variable (s : State) (rest : List HostAction)

@[simp] theorem State.takeMove_mr : (s.takeMove rest).mr = s.mr := rfl
@[simp] theorem State.takeMove_matrixAt (r : MReg) :
    (s.takeMove rest).matrixAt r = s.matrixAt r := rfl
@[simp] theorem State.takeMove_dmem : (s.takeMove rest).dmem = s.dmem := rfl
@[simp] theorem State.takeMove_cfg : (s.takeMove rest).cfg = s.cfg := rfl
@[simp] theorem State.takeMove_err : (s.takeMove rest).err = s.err := rfl
@[simp] theorem State.takeMove_esticky : (s.takeMove rest).esticky = s.esticky := rfl
@[simp] theorem State.takeMove_cmd1 : (s.takeMove rest).cmd1 = s.cmd1 := rfl
@[simp] theorem State.takeMove_cmd2 : (s.takeMove rest).cmd2 = s.cmd2 := rfl
@[simp] theorem State.takeMove_cmd3 : (s.takeMove rest).cmd3 = s.cmd3 := rfl
@[simp] theorem State.takeMove_host : (s.takeMove rest).host = rest := rfl
@[simp] theorem State.takeMove_reply : (s.takeMove rest).reply = .nothing := rfl

end TakeMove

section AfterReset
variable (c : Config) (contents : Nat)

@[simp] theorem State.afterReset_mr : (State.afterReset c contents).mr = .allInvalid := rfl
@[simp] theorem State.afterReset_matrixAt (r : MReg) :
    (State.afterReset c contents).matrixAt r = none := by cases r <;> rfl
@[simp] theorem State.afterReset_dmem : (State.afterReset c contents).dmem = ⟨contents, []⟩ := rfl
@[simp] theorem State.afterReset_cfg : (State.afterReset c contents).cfg = c := rfl
@[simp] theorem State.afterReset_err : (State.afterReset c contents).err = 0 := rfl
@[simp] theorem State.afterReset_esticky : (State.afterReset c contents).esticky = 0 := rfl
@[simp] theorem State.afterReset_cmd1 : (State.afterReset c contents).cmd1 = 0 := rfl
@[simp] theorem State.afterReset_cmd2 : (State.afterReset c contents).cmd2 = 0 := rfl
@[simp] theorem State.afterReset_cmd3 : (State.afterReset c contents).cmd3 = 0 := rfl
@[simp] theorem State.afterReset_host : (State.afterReset c contents).host = [] := rfl
@[simp] theorem State.afterReset_reply : (State.afterReset c contents).reply = .nothing := rfl

end AfterReset

section ResetMove
variable (s : State) (contents : Nat)

@[simp] theorem State.resetMove_mr : (s.resetMove contents).mr = .allInvalid := rfl
@[simp] theorem State.resetMove_matrixAt (r : MReg) :
    (s.resetMove contents).matrixAt r = none := by cases r <;> rfl
@[simp] theorem State.resetMove_dmem : (s.resetMove contents).dmem = ⟨contents, []⟩ := rfl
@[simp] theorem State.resetMove_cfg : (s.resetMove contents).cfg = s.cfg := rfl
@[simp] theorem State.resetMove_err : (s.resetMove contents).err = 0 := rfl
@[simp] theorem State.resetMove_esticky : (s.resetMove contents).esticky = 0 := rfl
@[simp] theorem State.resetMove_cmd1 : (s.resetMove contents).cmd1 = 0 := rfl
@[simp] theorem State.resetMove_cmd2 : (s.resetMove contents).cmd2 = 0 := rfl
@[simp] theorem State.resetMove_cmd3 : (s.resetMove contents).cmd3 = 0 := rfl
@[simp] theorem State.resetMove_host : (s.resetMove contents).host = s.host := rfl
@[simp] theorem State.resetMove_reply : (s.resetMove contents).reply = .nothing := rfl

end ResetMove

end Sys2Proof.Machine
end

