-- ==== Sys2Proof/Laws/Memory.lean ====
section
/-! SUPPORT. The laws of `DMEM`: a read after a write, a write leaves other addresses alone, and every
operation keeps the canonical form (20_memory.md R60, R64). -/

namespace Sys2Proof.Machine

section Cells

theorem lookupCell_insertCell (a b : Nat) (v : Byte) (cs : List Host.Cell) :
    lookupCell a (insertCell b v cs) = if a = b then some v else lookupCell a cs := by
  induction cs with
  | nil => simp [insertCell, lookupCell, eq_comm]
  | cons c cs ih =>
    unfold insertCell
    split
    · rw [lookupCell, ih, lookupCell]
      split_ifs <;> first | rfl | omega
    · split
      · simp only [lookupCell]
        split_ifs <;> first | rfl | omega
      · simp only [lookupCell]
        split_ifs <;> first | rfl | omega

theorem lookupCell_eraseCell_other {a b : Nat} (h : a ≠ b) (cs : List Host.Cell) :
    lookupCell a (eraseCell b cs) = lookupCell a cs := by
  induction cs with
  | nil => rfl
  | cons c cs ih =>
    unfold eraseCell
    split
    · rw [lookupCell, if_neg (by omega)]
    · rw [lookupCell, ih, lookupCell]

theorem lookupCell_none_of_above {a : Nat} {cs : List Host.Cell} (h : ∀ c ∈ cs, a < c.1) :
    lookupCell a cs = none := by
  induction cs with
  | nil => rfl
  | cons c cs ih =>
    have := h c (by simp)
    rw [lookupCell, if_neg (by omega)]
    exact ih fun d hd => h d (by simp [hd])

theorem cellsRising_cons {c : Host.Cell} {cs : List Host.Cell} :
    cellsRising (c :: cs) = true ↔ (∀ d ∈ cs, c.1 < d.1) ∧ cellsRising cs = true := by
  simp [cellsRising]

theorem lookupCell_eraseCell_same {a : Nat} {cs : List Host.Cell} (h : cellsRising cs = true) :
    lookupCell a (eraseCell a cs) = none := by
  induction cs with
  | nil => rfl
  | cons c cs ih =>
    obtain ⟨above, rising⟩ := cellsRising_cons.mp h
    unfold eraseCell
    split
    · exact lookupCell_none_of_above fun d hd => by have := above d hd; omega
    · rw [lookupCell, if_neg (by omega)]
      exact ih rising

theorem mem_insertCell {a : Nat} {v : Byte} {cs : List Host.Cell} {d : Host.Cell}
    (h : d ∈ insertCell a v cs) : d = (a, v) ∨ d ∈ cs := by
  induction cs with
  | nil => simpa [insertCell] using h
  | cons c cs ih =>
    unfold insertCell at h
    split at h
    · rcases List.mem_cons.mp h with rfl | h
      · simp
      · rcases ih h with h | h <;> simp [h]
    · split at h <;> rcases List.mem_cons.mp h with h | h <;> simp_all

theorem mem_eraseCell {a : Nat} {cs : List Host.Cell} {d : Host.Cell}
    (h : d ∈ eraseCell a cs) : d ∈ cs := by
  induction cs with
  | nil => simp [eraseCell] at h
  | cons c cs ih =>
    unfold eraseCell at h
    split at h
    · simp [h]
    · rcases List.mem_cons.mp h with rfl | h
      · simp
      · simp [ih h]

theorem cellsRising_insertCell (a : Nat) (v : Byte) {cs : List Host.Cell}
    (h : cellsRising cs = true) : cellsRising (insertCell a v cs) = true := by
  induction cs with
  | nil => simp [insertCell, cellsRising]
  | cons c cs ih =>
    obtain ⟨above, rising⟩ := cellsRising_cons.mp h
    unfold insertCell
    split
    · refine cellsRising_cons.mpr ⟨fun d hd => ?_, ih rising⟩
      rcases mem_insertCell hd with rfl | hd
      · assumption
      · exact above d hd
    · split
      · exact cellsRising_cons.mpr ⟨fun d hd => by have := above d hd; simp only; omega, rising⟩
      · refine cellsRising_cons.mpr ⟨fun d hd => ?_, h⟩
        rcases List.mem_cons.mp hd with rfl | hd
        · simp only; omega
        · have := above d hd; simp only; omega

theorem cellsRising_eraseCell (a : Nat) {cs : List Host.Cell}
    (h : cellsRising cs = true) : cellsRising (eraseCell a cs) = true := by
  induction cs with
  | nil => simp [eraseCell, cellsRising]
  | cons c cs ih =>
    obtain ⟨above, rising⟩ := cellsRising_cons.mp h
    unfold eraseCell
    split
    · exact rising
    · exact cellsRising_cons.mpr ⟨fun d hd => above d (mem_eraseCell hd), ih rising⟩

end Cells

section Memory

/-- The canonical form, as a proposition. -/
theorem Memory.wf_iff (m : Memory) :
    m.wf = true ↔ cellsRising m.cells = true ∧ ∀ c ∈ m.cells, c.2 ≠ m.unlisted c.1 := by
  simp [Memory.wf]

@[simp] theorem Memory.write_init (m : Memory) (a : Nat) (v : Byte) :
    (m.write a v).init = m.init := rfl

@[simp] theorem Memory.write_unlisted (m : Memory) (a b : Nat) (v : Byte) :
    (m.write a v).unlisted b = m.unlisted b := rfl

@[simp] theorem Memory.read_unlisted (i a : Nat) :
    Memory.read ⟨i, []⟩ a = Memory.unlisted ⟨i, []⟩ a := rfl

@[simp] theorem Memory.wf_empty (i : Nat) : Memory.wf ⟨i, []⟩ = true := rfl

/-- A write leaves every other address alone. -/
theorem Memory.read_write_other (m : Memory) {a b : Nat} (v : Byte) (h : a ≠ b) :
    (m.write b v).read a = m.read a := by
  unfold Memory.read
  rw [Memory.write_unlisted]
  congr 1
  unfold Memory.write
  simp only
  split
  · exact lookupCell_eraseCell_other h _
  · rw [lookupCell_insertCell, if_neg h]

/-- A read after a write to the same address gives the byte written. -/
theorem Memory.read_write_same {m : Memory} (wf : m.wf = true) (a : Nat) (v : Byte) :
    (m.write a v).read a = v := by
  unfold Memory.read
  rw [Memory.write_unlisted]
  unfold Memory.write
  simp only
  split
  · rename_i h
    rw [lookupCell_eraseCell_same ((Memory.wf_iff m).mp wf).1, Option.getD_none, h]
  · rw [lookupCell_insertCell, if_pos rfl, Option.getD_some]

/-- A write keeps the canonical form. -/
theorem Memory.write_wf {m : Memory} (wf : m.wf = true) (a : Nat) (v : Byte) :
    (m.write a v).wf = true := by
  obtain ⟨rising, differ⟩ := (Memory.wf_iff m).mp wf
  refine (Memory.wf_iff _).mpr ⟨?_, ?_⟩
  · unfold Memory.write
    simp only
    split
    · exact cellsRising_eraseCell a rising
    · exact cellsRising_insertCell a v rising
  · intro c hc
    rw [Memory.write_unlisted]
    unfold Memory.write at hc
    simp only at hc
    split at hc
    · exact differ c (mem_eraseCell hc)
    · rcases mem_insertCell hc with rfl | hc
      · assumption
      · exact differ c hc

/-- A write lists no address but its own and those listed before. -/
theorem Memory.write_cells_bound {m : Memory} {N : Nat} (h : ∀ c ∈ m.cells, c.1 < N) {a : Nat}
    (ha : a < N) (v : Byte) : ∀ c ∈ (m.write a v).cells, c.1 < N := by
  intro c hc
  unfold Memory.write at hc
  simp only at hc
  split at hc
  · exact h c (mem_eraseCell hc)
  · rcases mem_insertCell hc with rfl | hc
    · exact ha
    · exact h c hc

theorem Memory.writeBytes_wf {m : Memory} (wf : m.wf = true) (addr : Nat) (bs : List Byte) :
    (m.writeBytes addr bs).wf = true := by
  induction bs generalizing m addr with
  | nil => exact wf
  | cons b bs ih => exact ih (Memory.write_wf wf addr b) (addr + 1)

theorem Memory.writeBytes_cells_bound {m : Memory} {N : Nat} (h : ∀ c ∈ m.cells, c.1 < N)
    {addr : Nat} {bs : List Byte} (hb : addr + bs.length ≤ N) :
    ∀ c ∈ (m.writeBytes addr bs).cells, c.1 < N := by
  induction bs generalizing m addr with
  | nil => exact h
  | cons b bs ih =>
    simp only [List.length_cons] at hb
    exact ih (Memory.write_cells_bound h (by omega) b) (by omega)

/-- `MemWrite` leaves every byte outside its range alone (20_memory.md R64). -/
theorem Memory.read_writeBytes_outside (m : Memory) {addr a : Nat} {bs : List Byte}
    (h : a < addr ∨ addr + bs.length ≤ a) : (m.writeBytes addr bs).read a = m.read a := by
  induction bs generalizing m addr with
  | nil => rfl
  | cons b bs ih =>
    simp only [List.length_cons] at h
    rw [Memory.writeBytes, ih _ (by omega), Memory.read_write_other _ _ (by omega)]

/-- `MemWrite` sets `DMEM[addr + k]` to `s[k]` (20_memory.md R64). -/
theorem Memory.read_writeBytes_inside {m : Memory} (wf : m.wf = true) (addr : Nat)
    {bs : List Byte} {k : Nat} (hk : k < bs.length) :
    (m.writeBytes addr bs).read (addr + k) = bs[k] := by
  induction bs generalizing m addr k with
  | nil => simp at hk
  | cons b bs ih =>
    rw [Memory.writeBytes]
    cases k with
    | zero =>
      rw [Memory.read_writeBytes_outside _ (by omega), Nat.add_zero, Memory.read_write_same wf]
      rfl
    | succ k =>
      have := ih (Memory.write_wf wf addr b) (addr + 1) (k := k) (by simpa using hk)
      rw [show addr + (k + 1) = addr + 1 + k by omega, this]
      rfl

@[simp] theorem Memory.readBytes_length (m : Memory) (addr N : Nat) :
    (m.readBytes addr N).length = N := by simp [Memory.readBytes]

theorem Memory.readBytes_get (m : Memory) (addr : Nat) {N k : Nat} (hk : k < N) :
    byteAt (m.readBytes addr N) k = m.read (addr + k) := by
  simp [byteAt, Memory.readBytes, hk]

/-- A read after a write of the same range gives the bytes written. -/
theorem Memory.readBytes_writeBytes {m : Memory} (wf : m.wf = true) (addr : Nat)
    (bs : List Byte) : (m.writeBytes addr bs).readBytes addr bs.length = bs := by
  refine List.ext_getElem (by simp) fun k h1 h2 => ?_
  simp only [Memory.readBytes, List.getElem_map, List.getElem_range]
  exact Memory.read_writeBytes_inside wf addr h2

/-- Reading a range depends on the bytes of the range alone. -/
theorem Memory.readBytes_congr {m m' : Memory} {addr addr' N : Nat}
    (h : ∀ k, k < N → m.read (addr + k) = m'.read (addr' + k)) :
    m.readBytes addr N = m'.readBytes addr' N := by
  unfold Memory.readBytes
  exact List.map_congr_left fun k hk => h k (List.mem_range.mp hk)

end Memory

end Sys2Proof.Machine
end

