-- ==== Sys2Proof/Laws/Ring.lean ====
section
/-! SUPPORT. The laws of matrices and of reduction modulo `2^D` (00_scope.md R14, R15;
40_matrix_arithmetic.md R120, R121). -/

namespace Sys2Proof.Machine

section Params
variable (ps : ParamSet)

theorem ps_n_le : ps.n ≤ 65528 := ps.legal.1.2.2
theorem ps_n_pos : 1 ≤ ps.n := le_trans (by omega) ps.legal.1.2.1
theorem ps_B_pos : 1 ≤ ps.B := ps.legal.2.1.1
theorem ps_B_le : ps.B ≤ ps.D := ps.legal.2.1.2.1
theorem ps_D_le : ps.D ≤ 16 := ps.legal.2.1.2.2
theorem ps_D_pos : 1 ≤ ps.D := le_trans (ps_B_pos ps) (ps_B_le ps)
theorem ps_m_pos : 1 ≤ ps.m := ps.legal.2.2.1.1
theorem ps_m_le : ps.m ≤ ps.n := ps.legal.2.2.1.2
theorem ps_nCols_pos : 1 ≤ ps.nCols := ps.legal.2.2.2.1.1
theorem ps_nCols_le : ps.nCols ≤ ps.n := ps.legal.2.2.2.1.2

theorem pow_D_le : 2 ^ ps.D ≤ 65536 := by
  simpa using Nat.pow_le_pow_right (n := 2) (by omega) (ps_D_le ps)

end Params

section Reduce

theorem reduce_toNat {D : Nat} (hD : D ≤ 16) (x : Int) :
    (reduce D x).toNat = (x % (2 ^ D : Nat)).toNat := by
  have h1 : 2 ^ D ≤ 65536 := by simpa using Nat.pow_le_pow_right (n := 2) (by omega) hD
  have h2 : 0 < 2 ^ D := Nat.two_pow_pos D
  have h3 := Int.emod_lt_of_pos x (b := (2 ^ D : Nat)) (by exact_mod_cast h2)
  have h4 := Int.emod_nonneg x (b := (2 ^ D : Nat)) (by omega)
  rw [reduce, BitVec.toNat_ofNat, Nat.mod_eq_of_lt]
  omega

/-- The ring element of a natural number. -/
theorem reduce_natCast_toNat {D : Nat} (hD : D ≤ 16) (k : Nat) :
    (reduce D (k : Int)).toNat = k % 2 ^ D := by
  rw [reduce_toNat hD, ← Int.natCast_mod, Int.toNat_natCast]

/-- Every reduced entry is in `[0, 2^D)` (R120). -/
theorem reduce_lt {D : Nat} (hD : D ≤ 16) (x : Int) : (reduce D x).toNat < 2 ^ D := by
  have h2 : 0 < 2 ^ D := Nat.two_pow_pos D
  have h3 := Int.emod_lt_of_pos x (b := (2 ^ D : Nat)) (by exact_mod_cast h2)
  rw [reduce_toNat hD]
  omega

end Reduce

section Tabulate
variable {r c : Nat} (f : Nat → Nat → Cell16)

theorem tabulate_rows (hr : r ≤ 65535) : (Matrix.tabulate r c f).rows.toNat = r := by
  simp only [Matrix.tabulate, BitVec.toNat_ofNat]; omega

theorem tabulate_cols (hc : c ≤ 65535) : (Matrix.tabulate r c f).cols.toNat = c := by
  simp only [Matrix.tabulate, BitVec.toNat_ofNat]; omega

@[simp] theorem tabulate_length : (Matrix.tabulate r c f).entries.length = r * c := by
  simp [Matrix.tabulate]

/-- The row-major index of an entry is inside the list (R15). -/
theorem rowMajor_lt {i j : Nat} (hi : i < r) (hj : j < c) : i * c + j < r * c := by
  calc i * c + j < i * c + c := by omega
    _ = (i + 1) * c := by ring
    _ ≤ r * c := Nat.mul_le_mul_right _ hi

theorem rowMajor_div {i j : Nat} (hj : j < c) : (i * c + j) / c = i := by
  rw [Nat.add_comm, Nat.add_mul_div_right _ _ (by omega), Nat.div_eq_of_lt hj, Nat.zero_add]

theorem rowMajor_mod {i j : Nat} (hj : j < c) : (i * c + j) % c = j := by
  rw [Nat.add_comm, Nat.add_mul_mod_self_right, Nat.mod_eq_of_lt hj]

/-- Entry `(i, j)` of the tabulated matrix is `f i j` (R15). -/
theorem tabulate_entry (hc : c ≤ 65535) {i j : Nat} (hi : i < r) (hj : j < c) :
    (Matrix.tabulate r c f).entry i j = f i j := by
  have hk := rowMajor_lt hi hj
  rw [Matrix.entry, tabulate_cols f hc, List.getD_eq_getElem _ _ (by simpa using hk)]
  simp [Matrix.tabulate, rowMajor_div hj, rowMajor_mod hj]

theorem tabulate_shape (hr : r ≤ 65535) (hc : c ≤ 65535) : (Matrix.tabulate r c f).Shape r c :=
  ⟨tabulate_rows f hr, tabulate_cols f hc, tabulate_length f⟩

/-- A tabulated matrix is the matrix of the numbers its entries are. -/
theorem tabulate_is {g : Nat → Nat → Nat} (hr : r ≤ 65535) (hc : c ≤ 65535)
    (h : ∀ i j, i < r → j < c → (f i j).toNat = g i j) : (Matrix.tabulate r c f).Is r c g :=
  ⟨tabulate_shape f hr hc, fun i j hi hj => by rw [tabulate_entry f hc hi hj, h i j hi hj]⟩

/-- A tabulated matrix of legal shape with entries below `2^D` is a legal register value (10_state.md
R22, R23). -/
theorem tabulate_legal (ps : ParamSet) (hr : 1 ≤ r ∧ r ≤ ps.n) (hc : 1 ≤ c ∧ c ≤ ps.n)
    (h : ∀ i j, (f i j).toNat < 2 ^ ps.D) : (Matrix.tabulate r c f).Legal ps := by
  have hn := ps_n_le ps
  refine ⟨?_, ?_, ?_, ?_⟩
  · rw [tabulate_rows f (by omega)]; exact hr
  · rw [tabulate_cols f (by omega)]; exact hc
  · rw [tabulate_length, tabulate_rows f (by omega), tabulate_cols f (by omega)]
  · simp only [Matrix.tabulate, List.mem_map]
    rintro e ⟨k, -, rfl⟩
    exact h _ _

end Tabulate

section Entries

/-- Two matrices of one shape with as many entries as it says are equal when their entries are. -/
theorem matrix_ext {M N : Matrix} (hr : M.rows = N.rows) (hc : M.cols = N.cols)
    (hM : M.entries.length = M.rows.toNat * M.cols.toNat)
    (hN : N.entries.length = N.rows.toNat * N.cols.toNat)
    (h : ∀ i j, i < M.rows.toNat → j < M.cols.toNat → M.entry i j = N.entry i j) : M = N := by
  cases M with | mk mr mc me => cases N with | mk nr nc ne =>
  simp only at hr hc
  subst hr hc
  simp only [Matrix.mk.injEq, true_and]
  refine List.ext_getElem (by simpa using hM.trans hN.symm) fun k h1 h2 => ?_
  have hk : k < mr.toNat * mc.toNat := by simpa [hM] using h1
  have hc : 0 < mc.toNat := Nat.pos_of_ne_zero fun h0 => by simp [h0] at hk
  have := h (k / mc.toNat) (k % mc.toNat) ((Nat.div_lt_iff_lt_mul hc).mpr hk) (Nat.mod_lt _ hc)
  simp only [Matrix.entry, Nat.div_add_mod'] at this
  rwa [List.getD_eq_getElem _ _ h1, List.getD_eq_getElem _ _ h2] at this

/-- Every entry of a legal matrix is in `[0, 2^D)` (10_state.md R23). -/
theorem entry_lt {ps : ParamSet} {M : Matrix} (h : M.Legal ps) (i j : Nat) :
    (M.entry i j).toNat < 2 ^ ps.D := by
  rw [Matrix.entry]
  by_cases hk : i * M.cols.toNat + j < M.entries.length
  · rw [List.getD_eq_getElem _ _ hk]
    exact h.2.2.2 _ (List.getElem_mem hk)
  · rw [List.getD_eq_default _ _ (by omega)]
    exact Nat.two_pow_pos _

/-- The dot product is the sum the rule writes (R122). -/
theorem dot_eq_sum (A B : Matrix) (i j k : Nat) :
    dot A B i j k = ∑ x ∈ Finset.range k, (A.entry i x).toNat * (B.entry x j).toNat := by
  induction k with
  | zero => rfl
  | succ k ih => rw [dot, ih, Finset.sum_range_succ]

end Entries

end Sys2Proof.Machine
end

