-- ==== Sys2Proof/Laws/Commands.lean ====
section
/-! SUPPORT. What the shared operations of a command can do: its checks, its end, and its one write
(30_encoding.md R92; 60_exceptions.md R236). -/

namespace Sys2Proof.Machine

section Checks

@[simp] theorem check_true (e : ErrorCode) : check true e = .ok () := rfl
@[simp] theorem check_false (e : ErrorCode) : check false e = .error e := rfl

theorem check_ok_iff {c : Bool} {e : ErrorCode} {u : Unit} : check c e = .ok u ↔ c = true := by
  cases c <;> simp [check]

theorem check_error_iff {c : Bool} {e e' : ErrorCode} :
    check c e = .error e' ↔ c = false ∧ e = e' := by
  cases c <;> simp [check]

/-- The binds of a command: it goes on only past a check that answered. -/
@[simp] theorem ok_bind {α β : Type} (a : α) (f : α → Except ErrorCode β) :
    (Except.ok a >>= f) = f a := rfl

@[simp] theorem error_bind {α β : Type} (e : ErrorCode) (f : α → Except ErrorCode β) :
    (Except.error e >>= f) = .error e := rfl

theorem bind_ok_iff {α β : Type} {x : Except ErrorCode α} {f : α → Except ErrorCode β} {b : β} :
    (x >>= f) = .ok b ↔ ∃ a, x = .ok a ∧ f a = .ok b := by
  cases x <;> simp

theorem source_of_some {s : State} {r : MReg} {M : Matrix} (h : s.matrixAt r = some M) :
    s.source r = .ok M := by simp [State.source, h]

theorem source_of_none {s : State} {r : MReg} (h : s.matrixAt r = none) :
    s.source r = .error .uninitRegister := by simp [State.source, h]

theorem source_ok_iff {s : State} {r : MReg} {M : Matrix} :
    s.source r = .ok M ↔ s.matrixAt r = some M := by
  unfold State.source
  split <;> simp_all

theorem checkDims_ok_iff {s : State} {n1 n2 : BitVec 16} {u : Unit} :
    s.checkDims n1 n2 = .ok u ↔
      (1 ≤ n1.toNat ∧ n1.toNat ≤ s.cfg.ps.n) ∧ (1 ≤ n2.toNat ∧ n2.toNat ≤ s.cfg.ps.n) := by
  simp [State.checkDims, check_ok_iff, dimensionOk]

theorem checkRange_ok_iff {s : State} {addr len : Word} {u : Unit} :
    s.checkRange addr len = .ok u ↔ addr.toNat + len.toNat ≤ s.cfg.dmemSize := by
  simp [State.checkRange, check_ok_iff]

end Checks

section Endings

/-- What the end of a command can do. -/
theorem finish_cases {s t : State} {r : Except ErrorCode Effect} (h : s.finish r = .next t) :
    (∃ e, r = .error e ∧ t = s.raise e) ∨ (∃ w, r = .ok w ∧ t = (s.apply w).complete) := by
  cases r with
  | error e => exact .inl ⟨e, rfl, by simpa [State.finish] using h.symm⟩
  | ok w => exact .inr ⟨w, rfl, by simpa [State.finish] using h.symm⟩

/-- Every command ends in a next state. -/
theorem finish_next (s : State) (r : Except ErrorCode Effect) : ∃ t, s.finish r = .next t := by
  cases r <;> exact ⟨_, rfl⟩

theorem code_ne_zero (e : ErrorCode) : e.code ≠ 0 := by cases e <;> decide

/-- The bits of `ESTICKY` after an error completion (60_exceptions.md R236). -/
theorem stickyAfter_getLsbD (old : BitVec 8) (e : ErrorCode) {k : Nat} (hk : k < 8) :
    (stickyAfter old e).getLsbD k = (old.getLsbD k || decide (k = e.code.toNat)) := by
  have key : ∀ e : ErrorCode, ∀ k : Fin 8,
      ((1 : BitVec 8) <<< e.code.toNat).getLsbD k = decide (k.val = e.code.toNat) := by
    intro e; cases e <;> decide
  rw [stickyAfter, BitVec.getLsbD_or, key e ⟨k, hk⟩]

/-- `raise` is an error completion (60_exceptions.md R236). -/
theorem raise_errorCompletion (s : State) (e : ErrorCode) : ErrorCompletion e s (s.raise e) :=
  ⟨⟨rfl, fun _ hk => stickyAfter_getLsbD _ _ hk⟩, fun _ => rfl, fun _ => rfl,
    rfl, rfl, rfl, rfl, rfl, rfl⟩

/-- A command whose first failing check is `e` ends with the error completion of `e`. -/
theorem finish_error {s : State} {r : Except ErrorCode Effect} {e : ErrorCode} (h : r = .error e) :
    ∃ t, s.finish r = .next t ∧ ErrorCompletion e s t :=
  ⟨s.raise e, by rw [h]; rfl, raise_errorCompletion s e⟩

/-- A command that writes matrix register `d` leaves all else but `STATUS` as it was. -/
theorem finish_matrix {s : State} {r : Except ErrorCode Effect} {d : MReg} {P : Matrix}
    (h : r = .ok (.matrix d P)) : ∃ t, s.finish r = .next t ∧ MatrixCompletion d P s t := by
  refine ⟨((s.writeMatrix d P).complete), by rw [h]; rfl, ?_, ⟨rfl, rfl⟩, ?_, fun _ => rfl,
    rfl, rfl, rfl, rfl, rfl, rfl⟩
  · rw [State.complete_matrixAt, State.writeMatrix_matrixAt, if_pos rfl]
  · intro r hr
    rw [State.complete_matrixAt, State.writeMatrix_matrixAt, if_neg hr]

/-- A command that writes the bytes of a stream leaves all else but `STATUS` as it was. -/
theorem finish_bytes {s : State} (wf : s.dmem.wf = true) {r : Except ErrorCode Effect}
    {addr N : Nat} {f : Nat → Bool} (h : r = .ok (.bytes addr (putbits N f))) :
    ∃ t, s.finish r = .next t ∧ BytesCompletion addr N f s t := by
  refine ⟨(s.storeBytes addr (putbits N f)).complete, by rw [h]; rfl, ?_, ⟨rfl, rfl⟩,
    fun _ => rfl, ?_, rfl, rfl, rfl, rfl, rfl, rfl⟩
  · intro p hp
    have := Memory.readBytes_writeBytes wf addr (putbits N f)
    rw [putbits_length] at this
    rw [State.complete_dmem, State.storeBytes_dmem, this, getbit_putbits f hp]
  · intro a ha
    rw [State.complete_dmem, State.storeBytes_dmem,
      Memory.read_writeBytes_outside _ (by simpa using ha)]

end Endings

section Invariant

/-- A write that keeps the invariant: a legal register value, bytes inside `DMEM`, or a register made
invalid. -/
def Effect.Legal (c : Config) : Effect → Prop
  | .matrix _ M => M.Legal c.ps
  | .bytes addr bs => addr + bs.length ≤ c.dmemSize
  | .invalidate _ => True

/-- An error completion keeps the invariant. -/
theorem raise_inv {s : State} (h : s.Inv) (e : ErrorCode) : (s.raise e).Inv := by
  obtain ⟨hm, hw, hb, h0, -⟩ := h
  refine ⟨hm, hw, hb, ?_, fun _ => ?_⟩
  · rw [State.raise_esticky, stickyAfter_getLsbD _ _ (by omega), h0]
    cases e <;> rfl
  · rw [State.raise_esticky, State.raise_err, stickyAfter_getLsbD _ _ (by omega)]
    simp

/-- A legal write, then completion, keeps the invariant. -/
theorem apply_complete_inv {s : State} (h : s.Inv) {w : Effect} (hw : w.Legal s.cfg) :
    (s.apply w).complete.Inv := by
  obtain ⟨hm, wf, hb, h0, -⟩ := h
  cases w with
  | matrix d M =>
    refine ⟨fun r N hN => ?_, wf, hb, h0, fun h => absurd rfl h⟩
    rw [State.complete_matrixAt, State.apply, State.writeMatrix_matrixAt] at hN
    split at hN
    · cases hN; exact hw
    · exact hm r N hN
  | bytes addr bs =>
    exact ⟨hm, Memory.writeBytes_wf wf _ _, Memory.writeBytes_cells_bound hb hw, h0,
      fun h => absurd rfl h⟩
  | invalidate d =>
    refine ⟨fun r N hN => ?_, wf, hb, h0, fun h => absurd rfl h⟩
    rw [State.complete_matrixAt, State.apply, State.invalidate_matrixAt] at hN
    split at hN
    · exact absurd hN (by simp)
    · exact hm r N hN

end Invariant

end Sys2Proof.Machine
end

