-- ==== Sys2Proof/Laws/Decode.lean ====
section
/-! SUPPORT. The parts of the encoding fit together: register fields, opcode bytes, and the fields of a
descriptor (30_encoding.md R90, R96, R99). -/

namespace Sys2Proof

@[simp] theorem MReg.ofBits_toBits (r : MReg) : MReg.ofBits r.toBits = r := by cases r <;> rfl

theorem MReg.toBits_ofBits (b : BitVec 3) : (MReg.ofBits b).toBits = b := by
  revert b; decide

@[simp] theorem Opcode.ofByte_byte (o : Opcode) : Opcode.ofByte o.byte = some o := by
  cases o <;> rfl

/-- An opcode byte names a command only if it is that command's byte (R96, R97). -/
theorem Opcode.byte_of_ofByte {b : BitVec 8} {o : Opcode} (h : Opcode.ofByte b = some o) :
    o.byte = b := by
  revert o b; decide

/-- Reading the fields of a descriptor written from fields gives them back (R90). -/
@[simp] theorem Fields.fields_descriptor (f : Fields) : f.descriptor.fields = f := by
  cases f
  simp only [Fields.descriptor, Descriptor.fields, Fields.mk.injEq]
  refine ⟨?_, ?_, ?_, ?_, ?_, ?_, trivial, trivial, ?_, ?_⟩ <;>
    · ext i hi
      simp only [BitVec.getElem_extractLsb', BitVec.getLsbD_append]
      repeat' split
      all_goals first | omega | (simp only [← BitVec.getLsbD_eq_getElem]; congr 1; omega)

/-- The 128-bit value of a descriptor has its words where R90 puts them. -/
@[simp] theorem Descriptor.ofBits_toBits (d : Descriptor) : Descriptor.ofBits d.toBits = d := by
  cases d
  simp only [Descriptor.ofBits, Descriptor.toBits, Descriptor.mk.injEq]
  refine ⟨?_, ?_, ?_, ?_⟩ <;>
    · ext i hi
      simp only [BitVec.getElem_extractLsb', BitVec.getLsbD_append]
      repeat' split
      all_goals first | omega | (simp only [← BitVec.getLsbD_eq_getElem]; congr 1; omega)

/-- Writing the fields of a descriptor gives it back: no bit is outside the fields (R90). -/
@[simp] theorem Descriptor.descriptor_fields (d : Descriptor) : d.fields.descriptor = d := by
  cases d
  simp only [Fields.descriptor, Descriptor.fields, Descriptor.mk.injEq]
  refine ⟨?_, trivial, trivial, ?_⟩ <;>
    · ext i hi
      simp only [BitVec.getElem_append, BitVec.getElem_extractLsb']
      repeat' split
      all_goals first | omega | (simp only [← BitVec.getLsbD_eq_getElem]; congr 1; omega)

@[simp] theorem decode_descriptor (f : Fields) : decode f.descriptor = f.decode := by
  simp [decode]

end Sys2Proof
end

