-- ==== Sys2Proof/Laws/Operations.lean ====
section
/-! SUPPORT. One lemma per shared operation of the commands that says what it computes: the four matrix
operations, the bits of the encoder, decoder, packer and unpacker, the lengths of the XOF, the entries of
the generator and of the sampler. The provers cite these instead of unfolding the operations. -/

namespace Sys2Proof.Machine

section Arithmetic
variable (ps : ParamSet) (A B E : Matrix)

theorem toNat16_le (v : BitVec 16) : v.toNat ≤ 65535 := by have := v.isLt; omega

/-- `matMul` (40_matrix_arithmetic.md R122). -/
theorem matMul_is : (matMul ps.D A B).Is A.rows.toNat B.cols.toNat fun i j =>
    dot A B i j A.cols.toNat % 2 ^ ps.D :=
  tabulate_is _ (toNat16_le _) (toNat16_le _) fun _ _ _ _ => reduce_natCast_toNat (ps_D_le ps) _

/-- `matMulAdd` (40_matrix_arithmetic.md R123). -/
theorem matMulAdd_is : (matMulAdd ps.D A B E).Is A.rows.toNat B.cols.toNat fun i j =>
    (dot A B i j A.cols.toNat + (E.entry i j).toNat) % 2 ^ ps.D :=
  tabulate_is _ (toNat16_le _) (toNat16_le _) fun _ _ _ _ => reduce_natCast_toNat (ps_D_le ps) _

/-- `matAdd` (40_matrix_arithmetic.md R124). -/
theorem matAdd_is : (matAdd ps.D A B).Is A.rows.toNat A.cols.toNat fun i j =>
    ((A.entry i j).toNat + (B.entry i j).toNat) % 2 ^ ps.D :=
  tabulate_is _ (toNat16_le _) (toNat16_le _) fun _ _ _ _ => reduce_natCast_toNat (ps_D_le ps) _

/-- `matSub` (40_matrix_arithmetic.md R125). -/
theorem matSub_is : (matSub ps.D A B).Is A.rows.toNat A.cols.toNat fun i j =>
    (((A.entry i j).toNat - (B.entry i j).toNat : Int) % (2 ^ ps.D : Nat)).toNat :=
  tabulate_is _ (toNat16_le _) (toNat16_le _) fun _ _ _ _ => reduce_toNat (ps_D_le ps) _

end Arithmetic

section Bits
variable (ps : ParamSet)

/-- `encodeMatrix`: the entry is the cell's value scaled by `2^(D-B)` (41_encode_decode.md R142). -/
theorem encodeMatrix_is (k : List Byte) : (encodeMatrix ps k).Is ps.m ps.nCols fun i j =>
    bitsBe k (ps.B * (i * ps.nCols + j)) ps.B * 2 ^ (ps.D - ps.B) := by
  have hn := ps_n_le ps
  have hm := ps_m_le ps
  have hc := ps_nCols_le ps
  refine tabulate_is _ (by omega) (by omega) fun i j _ _ => ?_
  rw [BitVec.toNat_ofNat, Nat.mod_eq_of_lt]
  calc bitsBe k (ps.B * (i * ps.nCols + j)) ps.B * 2 ^ (ps.D - ps.B)
      < 2 ^ ps.B * 2 ^ (ps.D - ps.B) :=
        Nat.mul_lt_mul_of_pos_right (bitsBe_lt _ _ _) (Nat.two_pow_pos _)
    _ = 2 ^ ps.D := by rw [← Nat.pow_add, Nat.add_sub_cancel' (ps_B_le ps)]
    _ ≤ 2 ^ 16 := Nat.pow_le_pow_right (by omega) (ps_D_le ps)

theorem decodeEntry_lt (e : Nat) : decodeEntry ps e < 2 ^ ps.B :=
  Nat.mod_lt _ (Nat.two_pow_pos _)

/-- `unpackMatrix`: the entry is the number of its `D` stream bits (42_pack_unpack.md R164). -/
theorem unpackMatrix_is (s : List Byte) {r c : Nat} (hr : r ≤ 65535) (hc : c ≤ 65535) :
    (unpackMatrix ps.D r c s).Is r c fun i j => bitsBe s (ps.D * (i * c + j)) ps.D := by
  refine tabulate_is _ hr hc fun i j _ _ => ?_
  rw [BitVec.toNat_ofNat, Nat.mod_eq_of_lt]
  exact lt_of_lt_of_le (bitsBe_lt _ _ _) (Nat.pow_le_pow_right (by omega) (ps_D_le ps))

end Bits

section Xof

@[simp] theorem lanesOf_length (f : Nat → Nat → Lane) : (lanesOf f).length = 25 := by
  simp [lanesOf]

theorem keccakRound_length (s : List Lane) (t : Nat) : (keccakRound s t).length = 25 := by
  rw [keccakRound, iota, lanesOf_length]

theorem keccakF_length (s : List Lane) : (keccakF s).length = 25 := by
  rw [keccakF, List.range_succ, List.foldl_append, List.foldl_cons, List.foldl_nil]
  exact keccakRound_length _ _

@[simp] theorem bytesOfLane_length (v : Lane) : (bytesOfLane v).length = 8 := by
  simp [bytesOfLane]

theorem rateBytes_length {r : Nat} (hr : r ≤ 200) {s : List Lane} (hs : s.length = 25) :
    (rateBytes r s).length = r := by
  have : (s.flatMap bytesOfLane).length = 200 := by
    simp [List.length_flatMap, hs]
  simp [rateBytes, this, hr]

theorem absorb_length (r : Nat) (msg : List Byte) : (absorb r msg).length = 25 := by
  have run : ∀ (p : List Byte) (ks : List Nat) (s : List Lane), s.length = 25 →
      (ks.foldl (absorbBlock r p) s).length = 25 := by
    intro p ks
    induction ks with
    | nil => exact fun s h => h
    | cons k ks ih => exact fun s _ => ih _ (keccakF_length _)
  exact run _ _ _ (by simp)

/-- `k` squeezed blocks are `k · r` bytes (43_gen_xof.md R191). -/
theorem squeeze_length {r : Nat} (hr : r ≤ 200) (k : Nat) {s : List Lane} (hs : s.length = 25) :
    (squeeze r k s).length = k * r := by
  induction k generalizing s with
  | zero => simp [squeeze]
  | succ k ih =>
    rw [squeeze, List.length_append, rateBytes_length hr hs, ih (keccakF_length s)]
    ring

theorem xofRate_bounds (x : Xof) : 1 ≤ xofRate x ∧ xofRate x ≤ 200 := by cases x <;> decide

end Xof

section Generate
variable (ps : ParamSet)

/-- A flat list of equal rows, by row and column. -/
theorem flatMap_rows_getD {α : Type} (d : α) (n c : Nat) (f : Nat → Nat → α) {i j : Nat}
    (hi : i < n) (hj : j < c) :
    ((List.range n).flatMap fun i => (List.range c).map (f i)).getD (i * c + j) d = f i j := by
  induction n with
  | zero => omega
  | succ n ih =>
    have hl : ((List.range n).flatMap fun i => (List.range c).map (f i)).length = n * c := by
      simp [List.length_flatMap]
    rw [List.range_succ, List.flatMap_append, List.flatMap_singleton]
    by_cases h : i < n
    · rw [List.getD_append _ _ _ _ (by rw [hl]; exact rowMajor_lt h hj)]
      exact ih h
    · have hin : i = n := by omega
      subst hin
      rw [List.getD_append_right _ _ _ _ (by rw [hl]; omega), hl, Nat.add_sub_cancel_left,
        List.getD_eq_getElem _ _ (by simpa using hj)]
      simp

/-- `genMatrix`: the entry is the byte pair `2j`, `2j+1` of the row's output, big-endian, modulo `2^D`
(43_gen_xof.md R182). -/
theorem genMatrix_is (seed : List Byte) : (genMatrix ps seed).Is ps.n ps.n fun i j =>
    fromBe16 (byteAt (rowOutput ps seed i) (2 * j)) (byteAt (rowOutput ps seed i) (2 * j + 1)) %
      2 ^ ps.D := by
  have hn := ps_n_le ps
  have hcols : (genMatrix ps seed).cols.toNat = ps.n := by
    simp only [genMatrix, BitVec.toNat_ofNat]; omega
  refine ⟨⟨?_, hcols, ?_⟩, fun i j hi hj => ?_⟩
  · simp only [genMatrix, BitVec.toNat_ofNat]; omega
  · simp [genMatrix, List.length_flatMap]
  · rw [Matrix.entry, hcols, genMatrix, flatMap_rows_getD _ _ _ _ hi hj, rowEntry,
      BitVec.toNat_ofNat, Nat.mod_eq_of_lt]
    exact lt_of_lt_of_le (Nat.mod_lt _ (Nat.two_pow_pos _))
      (Nat.pow_le_pow_right (by omega) (ps_D_le ps))

end Generate

section Sample

/-- `sampleMatrix`: the entry is the sample of its input word, modulo `2^D` (44_sample.md R213). -/
theorem sampleMatrix_is (ps : ParamSet) (f : BitVec 16 → Int) (buf : List Byte) {r c : Nat}
    (hr : r ≤ 65535) (hc : c ≤ 65535) : (sampleMatrix f ps.D r c buf).Is r c fun i j =>
      (f (sampleWordAt buf (i * c + j)) % (2 ^ ps.D : Nat)).toNat :=
  tabulate_is _ hr hc fun _ _ _ _ => reduce_toNat (ps_D_le ps) _

end Sample

section Effects

/-- A matrix whose entries are numbers below `2^D` is a legal register value (10_state.md R22, R23). -/
theorem is_legal {ps : ParamSet} {P : Matrix} {r c : Nat} {f : Nat → Nat → Nat} (h : P.Is r c f)
    (hr : 1 ≤ r ∧ r ≤ ps.n) (hc : 1 ≤ c ∧ c ≤ ps.n)
    (hf : ∀ i j, i < r → j < c → f i j < 2 ^ ps.D) : P.Legal ps := by
  obtain ⟨⟨h1, h2, h3⟩, h4⟩ := h
  refine ⟨by omega, by omega, by rw [h1, h2, h3], fun e he => ?_⟩
  obtain ⟨k, hk, rfl⟩ := List.getElem_of_mem he
  have hk' : k < r * c := by omega
  have hi : k / c < r := (Nat.div_lt_iff_lt_mul (by omega)).mpr hk'
  have hj : k % c < c := Nat.mod_lt _ (by omega)
  have := hf _ _ hi hj
  rw [← h4 _ _ hi hj, Matrix.entry, h2, Nat.div_add_mod', List.getD_eq_getElem _ _ hk] at this
  exact this

end Effects

end Sys2Proof.Machine
end

