-- ==== Sys2Proof/Laws/Effects.lean ====
section
/-! SUPPORT. One lemma per command that says when every check of it passes and what it then writes; with
`finish_cases` these are all a command can do (30_encoding.md R92, R93). -/

namespace Sys2Proof.Machine

theorem mulEffect_ok_iff {md ma mb : MReg} {s : State} {w : Effect} :
    mulEffect md ma mb s = .ok w ↔ ∃ A B, s.matrixAt ma = some A ∧ s.matrixAt mb = some B ∧
      A.cols = B.rows ∧ w = .matrix md (matMul s.cfg.ps.D A B) := by
  simp only [mulEffect, bind_ok_iff, source_ok_iff, check_ok_iff, decide_eq_true_eq, pure,
    Except.pure, Except.ok.injEq]
  aesop

theorem macEffect_ok_iff {md ma mb me : MReg} {s : State} {w : Effect} :
    macEffect md ma mb me s = .ok w ↔ ∃ A B E, s.matrixAt ma = some A ∧ s.matrixAt mb = some B ∧
      s.matrixAt me = some E ∧ (A.cols = B.rows ∧ E.rows = A.rows ∧ E.cols = B.cols) ∧
      w = .matrix md (matMulAdd s.cfg.ps.D A B E) := by
  simp only [macEffect, bind_ok_iff, source_ok_iff, check_ok_iff, Bool.and_eq_true,
    decide_eq_true_eq, pure, Except.pure, Except.ok.injEq]
  aesop

theorem addEffect_ok_iff {md ma mb : MReg} {s : State} {w : Effect} :
    addEffect md ma mb s = .ok w ↔ ∃ A B, s.matrixAt ma = some A ∧ s.matrixAt mb = some B ∧
      (A.rows = B.rows ∧ A.cols = B.cols) ∧ w = .matrix md (matAdd s.cfg.ps.D A B) := by
  simp only [addEffect, bind_ok_iff, source_ok_iff, check_ok_iff, Bool.and_eq_true,
    decide_eq_true_eq, pure, Except.pure, Except.ok.injEq]
  aesop

theorem subEffect_ok_iff {md ma mb : MReg} {s : State} {w : Effect} :
    subEffect md ma mb s = .ok w ↔ ∃ A B, s.matrixAt ma = some A ∧ s.matrixAt mb = some B ∧
      (A.rows = B.rows ∧ A.cols = B.cols) ∧ w = .matrix md (matSub s.cfg.ps.D A B) := by
  simp only [subEffect, bind_ok_iff, source_ok_iff, check_ok_iff, Bool.and_eq_true,
    decide_eq_true_eq, pure, Except.pure, Except.ok.injEq]
  aesop

theorem encEffect_ok_iff {md : MReg} {addr len : Word} {s : State} {w : Effect} :
    encEffect md addr len s = .ok w ↔ len.toNat = plainBytes s.cfg.ps ∧
      addr.toNat + len.toNat ≤ s.cfg.dmemSize ∧
      w = .matrix md (encodeMatrix s.cfg.ps (s.input addr (plainBytes s.cfg.ps))) := by
  simp only [encEffect, bind_ok_iff, check_ok_iff, checkRange_ok_iff, decide_eq_true_eq, pure,
    Except.pure, Except.ok.injEq, exists_const]
  aesop

theorem decEffect_ok_iff {addr len : Word} {ma : MReg} {s : State} {w : Effect} :
    decEffect addr len ma s = .ok w ↔ ∃ M, s.matrixAt ma = some M ∧
      (M.rows.toNat = s.cfg.ps.m ∧ M.cols.toNat = s.cfg.ps.nCols) ∧
      len.toNat = plainBytes s.cfg.ps ∧ addr.toNat + len.toNat ≤ s.cfg.dmemSize ∧
      w = .bytes addr.toNat (decodeMatrix s.cfg.ps M) := by
  simp only [decEffect, bind_ok_iff, source_ok_iff, check_ok_iff, checkRange_ok_iff,
    Bool.and_eq_true, decide_eq_true_eq, pure, Except.pure, Except.ok.injEq, exists_const]
  aesop

theorem packEffect_ok_iff {addr len : Word} {ma : MReg} {s : State} {w : Effect} :
    packEffect addr len ma s = .ok w ↔ ∃ M, s.matrixAt ma = some M ∧
      packedBytes s.cfg.ps M.rows.toNat M.cols.toNat ≤ len.toNat ∧
      addr.toNat + len.toNat ≤ s.cfg.dmemSize ∧ w = .bytes addr.toNat (packMatrix s.cfg.ps M) := by
  simp only [packEffect, bind_ok_iff, source_ok_iff, check_ok_iff, checkRange_ok_iff,
    decide_eq_true_eq, pure, Except.pure, Except.ok.injEq, exists_const]
  aesop

theorem unpackEffect_ok_iff {md : MReg} {addr len : Word} {n1 n2 : BitVec 16} {s : State}
    {w : Effect} : unpackEffect md addr len n1 n2 s = .ok w ↔
      ((1 ≤ n1.toNat ∧ n1.toNat ≤ s.cfg.ps.n) ∧ (1 ≤ n2.toNat ∧ n2.toNat ≤ s.cfg.ps.n)) ∧
      packedBytes s.cfg.ps n1.toNat n2.toNat ≤ len.toNat ∧
      addr.toNat + len.toNat ≤ s.cfg.dmemSize ∧
      w = .matrix md (unpackMatrix s.cfg.ps.D n1.toNat n2.toNat
        (s.input addr (packedBytes s.cfg.ps n1.toNat n2.toNat))) := by
  simp only [unpackEffect, bind_ok_iff, checkDims_ok_iff, check_ok_iff, checkRange_ok_iff,
    decide_eq_true_eq, pure, Except.pure, Except.ok.injEq, exists_const]
  aesop

theorem genEffect_ok_iff {md : MReg} {addr len : Word} {s : State} {w : Effect} :
    genEffect md addr len s = .ok w ↔ len.toNat = seedBytes s.cfg.ps ∧
      addr.toNat + len.toNat ≤ s.cfg.dmemSize ∧
      w = .matrix md (genMatrix s.cfg.ps (s.input addr (seedBytes s.cfg.ps))) := by
  simp only [genEffect, bind_ok_iff, check_ok_iff, checkRange_ok_iff, decide_eq_true_eq, pure,
    Except.pure, Except.ok.injEq, exists_const]
  aesop

theorem sampEffect_ok_iff {md : MReg} {addr len : Word} {n1 n2 : BitVec 16} {s : State}
    {w : Effect} : sampEffect md addr len n1 n2 s = .ok w ↔
      ((1 ≤ n1.toNat ∧ n1.toNat ≤ s.cfg.ps.n) ∧ (1 ≤ n2.toNat ∧ n2.toNat ≤ s.cfg.ps.n)) ∧
      len.toNat = sampleBytes n1.toNat n2.toNat ∧
      addr.toNat + len.toNat ≤ s.cfg.dmemSize ∧
      w = .matrix md (sampleMatrix s.cfg.sampleFn s.cfg.ps.D n1.toNat n2.toNat
        (s.input addr (sampleBytes n1.toNat n2.toNat))) := by
  simp only [sampEffect, bind_ok_iff, checkDims_ok_iff, check_ok_iff, checkRange_ok_iff,
    decide_eq_true_eq, pure, Except.pure, Except.ok.injEq, exists_const]
  aesop

end Sys2Proof.Machine
end

