-- ==== Sys2Proof/Laws/PerInstr.lean ====
section
/-! SUPPORT. The statements made per command, one lemma per constructor of `Instr`. -/

namespace Sys2Proof.Laws

/-- The encoding of a command has an opcode of the opcode map, a zero reserved field and zeros in every
field its opcode does not use (30_encoding.md R95, R96). -/
def EncodesLegally.Statement (i : Instr) : Prop :=
  ∃ o : Opcode, (encode i).fields.opcode = o.byte ∧ (encode i).fields.rsv = 0 ∧
    (encode i).fields.unusedZero o.used = true

theorem EncodesLegally.mul (md ma mb : MReg) : EncodesLegally.Statement (.mul md ma mb) :=
  ⟨.mul, by simp [encode, Instr.fields, Opcode.blank, Opcode.used, Fields.unusedZero]⟩

theorem EncodesLegally.mac (md ma mb me : MReg) : EncodesLegally.Statement (.mac md ma mb me) :=
  ⟨.mac, by simp [encode, Instr.fields, Opcode.blank, Opcode.used, Fields.unusedZero]⟩

theorem EncodesLegally.add (md ma mb : MReg) : EncodesLegally.Statement (.add md ma mb) :=
  ⟨.add, by simp [encode, Instr.fields, Opcode.blank, Opcode.used, Fields.unusedZero]⟩

theorem EncodesLegally.sub (md ma mb : MReg) : EncodesLegally.Statement (.sub md ma mb) :=
  ⟨.sub, by simp [encode, Instr.fields, Opcode.blank, Opcode.used, Fields.unusedZero]⟩

theorem EncodesLegally.enc (md : MReg) (addr len : Word) :
    EncodesLegally.Statement (.enc md addr len) :=
  ⟨.enc, by simp [encode, Instr.fields, Opcode.blank, Opcode.used, Fields.unusedZero]⟩

theorem EncodesLegally.dec (addr len : Word) (ma : MReg) :
    EncodesLegally.Statement (.dec addr len ma) :=
  ⟨.dec, by simp [encode, Instr.fields, Opcode.blank, Opcode.used, Fields.unusedZero]⟩

theorem EncodesLegally.pack (addr len : Word) (ma : MReg) :
    EncodesLegally.Statement (.pack addr len ma) :=
  ⟨.pack, by simp [encode, Instr.fields, Opcode.blank, Opcode.used, Fields.unusedZero]⟩

theorem EncodesLegally.unpack (md : MReg) (addr len : Word) (n1 n2 : BitVec 16) :
    EncodesLegally.Statement (.unpack md addr len n1 n2) :=
  ⟨.unpack, by simp [encode, Instr.fields, Opcode.blank, Opcode.used, Fields.unusedZero]⟩

theorem EncodesLegally.gen (md : MReg) (addr len : Word) :
    EncodesLegally.Statement (.gen md addr len) :=
  ⟨.gen, by simp [encode, Instr.fields, Opcode.blank, Opcode.used, Fields.unusedZero]⟩

theorem EncodesLegally.samp (md : MReg) (addr len : Word) (n1 n2 : BitVec 16) :
    EncodesLegally.Statement (.samp md addr len n1 n2) :=
  ⟨.samp, by simp [encode, Instr.fields, Opcode.blank, Opcode.used, Fields.unusedZero]⟩

theorem EncodesLegally.clr (md : MReg) : EncodesLegally.Statement (.clr md) :=
  ⟨.clr, by simp [encode, Instr.fields, Opcode.blank, Opcode.used, Fields.unusedZero]⟩

end Sys2Proof.Laws
end

