-- ==== Sys2Proof/Tests/Slice0.lean ====
section
/-! SUPPORT. The model's own tests. Expected results are those of spec/95_test_vectors.md (a test names
its vector V<n>), of the worked encodings of 30_encoding.md R102, of the check values of 43_gen_xof.md
R193, or of hand calculation from a rule. After them, one witness for each obligation with hypotheses. -/

open Sys2Proof Sys2Proof.Machine

namespace Sys2Proof.Tests

section Fixtures

/-- The fixture TOY (spec/95_test_vectors.md section 0). -/
def toyPS : ParamSet where
  n := 8
  D := 5
  B := 2
  m := 2
  nCols := 2
  l := 8
  lenSeedA := 128
  lenSeedSE := 128
  xof := .shake128
  legal := by decide

/-- The fixture TOY15. -/
def toy15PS : ParamSet := { toyPS with D := 15, legal := by decide }

/-- The fixture TOY16. -/
def toy16PS : ParamSet := { toyPS with D := 16, B := 4, l := 16, xof := .shake256, legal := by decide }

/-- A legal parameter set with `B = D`. -/
def fullPS : ParamSet := { toyPS with D := 4, B := 4, l := 16, legal := by decide }

/-- An instance with 0x100 bytes of `DMEM`. -/
def small (ps : ParamSet) : Config := ⟨ps, 0x100, by decide⟩

/-- `m0` to `m2` of section 2.1 of the vectors. -/
def A23 : Machine.Matrix := ⟨2, 3, [1, 2, 3, 4, 5, 6]⟩
def B32 : Machine.Matrix := ⟨3, 2, [7, 8, 9, 10, 11, 12]⟩
def E22 : Machine.Matrix := ⟨2, 2, [31, 0, 1, 2]⟩

/-- A memory that holds `bs` at `a`, and zeros. -/
def memoryOf (a : Nat) (bs : List Byte) : Memory := (Memory.mk 0 []).writeBytes a bs

/-- A state after reset, with values in the first three matrix registers and bytes in memory. -/
def stateOf (c : Config) (m0 m1 m2 : Option Machine.Matrix) (mem : Memory) : State :=
  { State.afterReset c 0 with mr := { MatrixRegs.allInvalid with m0 := m0, m1 := m1, m2 := m2 }, dmem := mem }

/-- The operands of section 2.1 on TOY. -/
def arith : State := stateOf (small toyPS) (some A23) (some B32) (some E22) (memoryOf 0 [])

/-- A state of TOY with a matrix in `m0` and bytes in memory. -/
def toy (m0 : Machine.Matrix) (a : Nat) (bs : List Byte) : State :=
  stateOf (small toyPS) (some m0) none none (memoryOf a bs)

/-- The state with one move of the host to come. -/
def withMove (s : State) (a : HostAction) : State := { s with host := [a] }

/-- What a check finds in the next state, if there is one. -/
def nextIs (o : Host.Outcome State Fault Refusal) (p : State → Bool) : Bool :=
  match o with
  | .next t => p t
  | .fault _ => false
  | .refused _ => false

/-- The command ended without error and register `r` holds `M`. -/
def writes (r : MReg) (M : Machine.Matrix) (t : State) : Bool := t.err = 0 && t.matrixAt r = some M

/-- The command ended without error and the bytes from `a` on are `bs`. -/
def stores (a : Nat) (bs : List Byte) (t : State) : Bool :=
  t.err = 0 && t.dmem.readBytes a bs.length = bs

/-- The command ended with a value of the whole register `STATUS`. -/
def status (w : Word) (t : State) : Bool := t.readReg 0 = w

/-- The number of one bits. -/
def popcount (v : Nat) : Nat := (List.range 16).foldl (fun a k => a + (v.testBit k).toNat) 0

/-- The fixture TOY_SAMPLE (44_sample.md R221). -/
def toySample (w : BitVec 16) : Int :=
  (popcount (w.toNat % 256) : Int) - (popcount (w.toNat / 256) : Int)

end Fixtures

section Decoding

/-! Words of 30_encoding.md R102, one for each command. -/

theorem test_decode_mul : decode ⟨0x01408000, 0, 0, 0⟩ = .ok (.mul .m2 .m0 .m1) := by decide
theorem test_decode_mac : decode ⟨0x0260A000, 0, 0, 0⟩ = .ok (.mac .m3 .m0 .m1 .m2) := by decide
theorem test_decode_add : decode ⟨0x03000000, 0, 0, 0⟩ = .ok (.add .m0 .m0 .m0) := by decide
theorem test_decode_sub : decode ⟨0x04FA8000, 0, 0, 0⟩ = .ok (.sub .m7 .m6 .m5) := by decide
theorem test_decode_enc :
    decode ⟨0x10800000, 0x200, 0x10, 0⟩ = .ok (.enc .m4 0x200 16) := by decide
theorem test_decode_dec :
    decode ⟨0x11100000, 0x300, 0x10, 0⟩ = .ok (.dec 0x300 16 .m4) := by decide
theorem test_decode_pack :
    decode ⟨0x12140000, 0x1000, 0x2580, 0⟩ = .ok (.pack 0x1000 9600 .m5) := by decide
theorem test_decode_unpack :
    decode ⟨0x13200000, 0x100, 3, 0x00020002⟩ = .ok (.unpack .m1 0x100 3 2 2) := by decide
theorem test_decode_gen : decode ⟨0x20000000, 0, 0x10, 0⟩ = .ok (.gen .m0 0 16) := by decide
theorem test_decode_samp :
    decode ⟨0x21200000, 0x40, 0x2800, 0x02800008⟩ = .ok (.samp .m1 0x40 10240 640 8) := by decide
theorem test_decode_clr : decode ⟨0x30C00000, 0, 0, 0⟩ = .ok (.clr .m6) := by decide

/-- R101: the pseudo-instruction `SAMPLE m3, @2` has the words of V64. -/
theorem test_decode_sample :
    decode ⟨0x21600000, 2, 2, 0x00010001⟩ = .ok (Instr.sample .m3 2) := by decide

/-- V71, V72, V69: a nonzero reserved field, a nonzero unused field of `W0`, and of `W2`. -/
theorem test_decode_rejects :
    decode ⟨0x01408001, 0, 0, 0⟩ = .rejected .nonzeroReserved ∧
    decode ⟨0x01409000, 0, 0, 0⟩ = .rejected .nonzeroUnused ∧
    decode ⟨0x30600000, 0, 1, 0⟩ = .rejected .nonzeroUnused ∧
    decode ⟨0x05000000, 0xFFFFFFFF, 0, 0⟩ = .rejected .undefinedOpcode := by decide

theorem test_encode :
    encode (.mac .m3 .m0 .m1 .m2) = ⟨0x0260A000, 0, 0, 0⟩ ∧
    encode (.unpack .m1 0x100 3 2 2) = ⟨0x13200000, 0x100, 3, 0x00020002⟩ ∧
    encode (.pack 0x1000 9600 .m5) = ⟨0x12140000, 0x1000, 0x2580, 0⟩ := by decide

/-- Opcode-table words: the row's own `match` values, and R102's UNPACK as one 128-bit value. -/
theorem test_decodeTableWord :
    decodeTableWord 128 0x01000000000000000000000000000000 = some (.mul .m0 .m0 .m0) ∧
    decodeTableWord 128 0x30000000000000000000000000000000 = some (.clr .m0) ∧
    decodeTableWord 128 0x13200000000001000000000300020002 = some (.unpack .m1 0x100 3 2 2) ∧
    decodeTableWord 32 0x30C00000 = some (.clr .m6) ∧ decodeTableWord 128 1 = none := by decide

/-- The first step after reset runs the placed command: `CLR m6` completes, `MUL` finds no source. -/
theorem test_withFetchWord :
    nextIs (step (State.reset.withFetchWord 128 0x30C00000000000000000000000000000)) (status 0) ∧
    nextIs (step (State.reset.withFetchWord 128 0x01000000000000000000000000000000))
      (status 0x00004006) := by decide +kernel

end Decoding

section WellFormed

/-! 30_encoding.md R98: each check refuses an ill-formed term (V48b, V48c, V65c). -/

theorem test_wellFormed_unpack_n1_zero : (Instr.unpack .m2 0x20 3 0 2).wellFormed toyPS = false := by
  decide
theorem test_wellFormed_unpack_n2_large : (Instr.unpack .m2 0x20 3 2 9).wellFormed toyPS = false := by
  decide
theorem test_wellFormed_samp_n1_large : (Instr.samp .m1 0 144 9 8).wellFormed toyPS = false := by
  decide
theorem test_wellFormed_samp_n2_zero : (Instr.samp .m1 0 0 1 0).wellFormed toyPS = false := by decide
theorem test_wellFormed_limits :
    (Instr.unpack .m2 0 3 1 8).wellFormed toyPS = true ∧
    (Instr.samp .m2 0 3 8 1).wellFormed toyPS = true ∧
    (Instr.unpack .m2 0 3 640 640).wellFormed .frodo640 = true := by decide

end WellFormed

section Commands

/-- V10. -/
theorem test_mul : nextIs (exec (.mul .m3 .m0 .m1) arith) (writes .m3 ⟨2, 2, [26, 0, 11, 26]⟩) := by
  decide +kernel
/-- V15: the product is not commutative. -/
theorem test_mul_swapped : nextIs (exec (.mul .m3 .m1 .m0) arith)
    (writes .m3 ⟨3, 3, [7, 22, 5, 17, 4, 23, 27, 18, 9]⟩) := by decide +kernel
/-- V11. -/
theorem test_mac : nextIs (exec (.mac .m4 .m0 .m1 .m2) arith)
    (writes .m4 ⟨2, 2, [25, 0, 12, 28]⟩) := by decide +kernel
/-- V18: the destination is both the first factor and the addend. -/
theorem test_mac_aliased : nextIs
    (exec (.mac .m1 .m1 .m2 .m1) (stateOf (small toyPS) none (some ⟨2, 2, [1, 2, 3, 4]⟩)
      (some ⟨2, 2, [5, 6, 7, 8]⟩) (memoryOf 0 [])))
    (writes .m1 ⟨2, 2, [20, 24, 14, 22]⟩) := by decide +kernel
/-- V16: the destination is both sources; 62 wraps to 30. -/
theorem test_add_aliased : nextIs (exec (.add .m2 .m2 .m2) arith)
    (writes .m2 ⟨2, 2, [30, 0, 2, 4]⟩) := by decide +kernel
/-- V19b: on TOY15 the sum 0x8000 wraps to 0. -/
theorem test_add_wraps : nextIs
    (exec (.add .m3 .m0 .m1) (stateOf (small toy15PS) (some ⟨1, 1, [0x7FFF]⟩) (some ⟨1, 1, [1]⟩) none
      (memoryOf 0 []))) (writes .m3 ⟨1, 1, [0]⟩) := by decide +kernel
/-- V13: `ma` is the minuend, negative differences wrap. -/
theorem test_sub : nextIs
    (exec (.sub .m5 .m2 .m0) { arith with mr := arith.mr.set .m0 (some ⟨2, 2, [26, 0, 11, 26]⟩) })
    (writes .m5 ⟨2, 2, [5, 0, 22, 8]⟩) := by decide +kernel
/-- V19f: on TOY16, 0 - 1 is 0xFFFF. -/
theorem test_sub_wraps : nextIs
    (exec (.sub .m3 .m2 .m1) (stateOf (small toy16PS) none (some ⟨1, 1, [1]⟩) (some ⟨1, 1, [0]⟩)
      (memoryOf 0 []))) (writes .m3 ⟨1, 1, [0xFFFF]⟩) := by decide +kernel
/-- V30. -/
theorem test_enc : nextIs (exec (.enc .m0 0 1) (toy A23 0 [0xB4]))
    (writes .m0 ⟨2, 2, [16, 24, 8, 0]⟩) := by decide +kernel
/-- V36a: the tie 4 rounds up, 28 wraps to 0. -/
theorem test_dec_boundaries : nextIs (exec (.dec 0x10 1 .m0) (toy ⟨2, 2, [3, 4, 27, 28]⟩ 0x11 [0x55]))
    (stores 0x10 [0x1C, 0x55]) := by decide +kernel
/-- V94: pad bits are read as nothing and written as zero. -/
theorem test_dec_pads : nextIs
    (exec (.dec 0 2 .m0) (stateOf (small { toyPS with nCols := 3, l := 12, legal := by decide })
      (some ⟨2, 3, [16, 24, 8, 0, 8, 24]⟩) none none (memoryOf 0 [0xFF, 0xFF])))
    (stores 0 [0xB4, 0x70]) := by decide +kernel
/-- V40: the bytes after the packed matrix keep their values. -/
theorem test_pack : nextIs
    (exec (.pack 0x10 3 .m0) (toy ⟨2, 2, [31, 0, 21, 1]⟩ 0x10 [0x55, 0x55, 0x55, 0x55, 0x55]))
    (stores 0x10 [0xF8, 0x2A, 0x10, 0x55, 0x55]) := by decide +kernel
/-- V47d: the sum of address and length is not taken modulo 2^32. -/
theorem test_pack_range : nextIs
    (exec (.pack 0xFFFFFFFF 0xFFFFFFFF .m0) (toy ⟨2, 2, [31, 0, 21, 1]⟩ 0 []))
    (status 0x00008007) := by decide +kernel
/-- V42: pad bits and the fourth byte are ignored. -/
theorem test_unpack : nextIs (exec (.unpack .m1 0x20 4 2 2) (toy A23 0x20 [0xF8, 0x2A, 0x1F, 0x77]))
    (writes .m1 ⟨2, 2, [31, 0, 21, 1]⟩) := by decide +kernel
/-- V91: a bad dimension comes before a short buffer. -/
theorem test_unpack_dimension : nextIs (exec (.unpack .m2 0xFF 1 0 2) (toy A23 0 []))
    (status 0x00002005) := by decide +kernel
/-- 43_gen_xof.md R195: the first row of TOY's matrix of the all-zero seed. -/
theorem test_gen_row : (List.range 8).map (rowEntry 5 (rowOutput toyPS (List.replicate 16 0) 0)) =
    [11, 22, 29, 6, 10, 0, 14, 1] := by decide +kernel
/-- V52c: the length is checked before the range. -/
theorem test_gen_length : nextIs (exec (.gen .m2 0xF8 15) arith) (status 0x00000201) := by
  decide +kernel
/-- V60: TOY_SAMPLE on the common input, negative samples as residues modulo 32. -/
theorem test_samp_residues :
    sampleMatrix toySample 5 2 4 [0xFF, 0, 0, 0xFF, 0x0F, 3, 0, 0, 0xFF, 0xFF, 1, 0x80, 7, 0, 0, 0xE0] =
      ⟨2, 4, [8, 24, 2, 0, 0, 0, 3, 29]⟩ := by decide +kernel
/-- V65b: a longer buffer is refused. -/
theorem test_samp_length : nextIs (exec (.samp .m1 0 17 2 4) arith) (status 0x00000402) := by
  decide +kernel
/-- V66: the register is invalid and its `MRSHAPE` reads 0. -/
theorem test_clr : nextIs (exec (.clr .m2) arith)
    (fun t => t.err = 0 && t.matrixAt .m2 = none && t.readReg 0x12 = 0) := by decide +kernel
/-- V67: clearing an invalid register succeeds. -/
theorem test_clr_invalid : nextIs (exec (.clr .m3) arith) (status 0) := by decide +kernel
/-- V21 and V23: the wrong shape, and an invalid source before any shape. -/
theorem test_errors :
    nextIs (exec (.add .m6 .m0 .m1) arith) (fun t => status 0x00001004 t && t.matrixAt .m6 = none) ∧
    nextIs (exec (.mul .m3 .m6 .m1) arith) (status 0x00004006) := by decide +kernel

/-- 43_gen_xof.md R193: SHAKE128 of 18 zero bytes. -/
theorem test_shake128 : xofBytes .shake128 (List.replicate 18 0) 16 =
    [0x3D, 0x6B, 0xA8, 0x36, 0xAB, 0xFD, 0x3C, 0x06, 0x35, 0xAA, 0xC9, 0x40, 0xAF, 0xCE, 0x7A, 0x81] := by
  decide +kernel
/-- 43_gen_xof.md R193: SHAKE256 of the empty string. -/
theorem test_shake256 : xofBytes .shake256 [] 8 =
    [0x46, 0xB9, 0xDD, 0x2B, 0x0B, 0xA8, 0x8D, 0x13] := by decide +kernel

end Commands

section Window

/-- V77: the parameter registers of TOY15 and TOY16. -/
theorem test_params :
    [0x08, 0x09, 0x0A, 0x0B].map (State.afterReset (small toy15PS) 0).readReg =
      [0x00000008, 0x0000020F, 0x00020002, 0x00000008] ∧
    (State.afterReset (small toy16PS) 0).readReg 0x09 = 0x00010410 ∧
    (State.afterReset (small toy15PS) 0).readReg 0x0D = 0x00000100 := by decide +kernel

/-- V75: a holding register stores all 32 bits, and no command is issued. -/
theorem test_holding : nextIs (step (withMove State.reset (.writeReg 0x02 0x12345678)))
    (fun t => t.readReg 0x02 = 0x12345678 && status 0 t) := by decide +kernel

/-- V10 through the window: `MRSHAPE[3]` after the issue of `MUL m3, m0, m1`. -/
theorem test_issue : nextIs (step (withMove arith (.writeReg 0x01 0x01608000)))
    (fun t => t.readReg 0x13 = 0x00020002) := by decide +kernel

/-- V70: an all-zero descriptor after reset. -/
theorem test_illegal : nextIs (step (withMove State.reset (.writeReg 0x01 0)))
    (status 0x00002005) := by decide +kernel

/-- The contents given to a reset are what memory holds: byte 1 of 0xAB12 is 0xAB. -/
theorem test_reset_contents : nextIs (step (withMove arith (.reset 0xAB12)))
    (fun t => t.dmem.read 1 = 0xAB && t.dmem.read 0 = 0x12 && t.matrixAt .m0 = none) := by decide +kernel

end Window

section Witnesses

/-! One witness for each obligation with hypotheses: a concrete state and operands that meet all of them
together, for every clause, at the ends of its range. -/

/-- The hypotheses on a command's own end: it answers a next state with `ERR` at 0. -/
def Ends (i : Instr) (s : State) : Prop := ∃ t, exec i s = .next t ∧ t.err = 0

/-- A state of TOY with `E22` in `m0` and the common sampler input in memory. -/
def buffers : State := toy E22 0 [0xFF, 0, 0, 0xFF, 0x0F, 3, 0, 0, 0xFF, 0xFF, 1, 0x80, 7, 0, 0, 0xE0]

/-- `Matrix.Legal` in the form that can be evaluated. -/
theorem legal {ps : ParamSet} {M : Machine.Matrix}
    (h : (1 ≤ M.rows.toNat ∧ M.rows.toNat ≤ ps.n) ∧ (1 ≤ M.cols.toNat ∧ M.cols.toNat ≤ ps.n) ∧
      M.entries.length = M.rows.toNat * M.cols.toNat ∧
      M.entries.all (fun e => decide (e.toNat < 2 ^ ps.D)) = true) : M.Legal ps :=
  ⟨h.1, h.2.1, h.2.2.1, by simpa using h.2.2.2⟩

theorem A23_legal : A23.Legal toyPS := legal (by decide)
theorem B32_legal : B32.Legal toyPS := legal (by decide)
theorem E22_legal : E22.Legal toyPS := legal (by decide)

theorem arith_inv : arith.Inv := by
  refine ⟨?_, by decide, by decide, by decide, fun h => absurd rfl h⟩
  intro r M h
  have h0 : ∀ {N : Machine.Matrix}, some N = some M → N.Legal toyPS → M.Legal toyPS :=
    fun e hN => Option.some.inj e ▸ hN
  cases r
  · exact h0 h A23_legal
  · exact h0 h B32_legal
  · exact h0 h E22_legal
  all_goals exact absurd (show (none : Option Machine.Matrix) = some M from h) (by simp)


theorem witness_EncodeOfDecodeIsTheDescriptor :
    decode ⟨0x04FA8000, 0, 0, 0⟩ = .ok (.sub .m7 .m6 .m5) := by decide

theorem witness_WorkedEncodingsDecode :
    (⟨0x13200000, 0, 0, 2⟩ : Descriptor) ∈ ([⟨0, 0, 0, 0⟩, ⟨0x01408001, 0, 0, 0⟩,
      ⟨0x01409000, 0, 0, 0⟩, ⟨0x30C00000, 0, 1, 0⟩, ⟨0x13200000, 0, 0, 2⟩] : List Descriptor) := by
  decide

theorem witness_StepRunsTheIssuedCommand :
    (withMove arith (.writeReg 0x01 0x01608000)).host = .writeReg 0x01 0x01608000 :: [] ∧
    decode ⟨0x01608000, arith.cmd1, arith.cmd2, arith.cmd3⟩ = .ok (.mul .m3 .m0 .m1) := by decide

/-- Opcode bytes 0x00, 0x05 and 0xFF. -/
theorem witness_UndefinedOpcodeIsIllegal :
    (withMove arith (.writeReg 0x01 0x05FFFFFF)).host = .writeReg 0x01 0x05FFFFFF :: [] ∧
    ∀ w ∈ [0x00000000, 0x05FFFFFF, 0xFF000000],
      (BitVec.ofNat 32 w).toNat / 2 ^ 24 ∉
        [0x01, 0x02, 0x03, 0x04, 0x10, 0x11, 0x12, 0x13, 0x20, 0x21, 0x30] := by decide

/-- V71 and V72: `rsv = 1`, and `me = 1`. -/
theorem witness_NonzeroUnusedFieldIsIllegal :
    (withMove arith (.writeReg 0x01 0x01408001)).host = .writeReg 0x01 0x01408001 :: [] ∧
    (OpcodeRow.mk 0x01 0x01000000 0xFF007FFF 0xFFFFFFFF 0xFFFFFFFF 0xFFFFFFFF) ∈ opcodeRows ∧
    (0x01408001 : Word).toNat / 2 ^ 24 = 0x01 ∧ (0x01409000 : Word).toNat / 2 ^ 24 = 0x01 ∧
    ¬ (OpcodeRow.mk 0x01 0x01000000 0xFF007FFF 0xFFFFFFFF 0xFFFFFFFF 0xFFFFFFFF).Fits
      ⟨0x01408001, arith.cmd1, arith.cmd2, arith.cmd3⟩ ∧
    ¬ (OpcodeRow.mk 0x01 0x01000000 0xFF007FFF 0xFFFFFFFF 0xFFFFFFFF 0xFFFFFFFF).Fits
      ⟨0x01409000, arith.cmd1, arith.cmd2, arith.cmd3⟩ :=
  ⟨rfl, List.mem_cons_self, by decide, by decide, by unfold OpcodeRow.Fits; decide,
    by unfold OpcodeRow.Fits; decide⟩

/-- Dimensions 0 and `n + 1` are outside, 1 and `n` inside. -/
theorem witness_DimensionsOutsideTheLimitsAreIllegal :
    ¬ (1 ≤ (0 : BitVec 16).toNat ∧ (0 : BitVec 16).toNat ≤ arith.cfg.ps.n) ∧
    ¬ (1 ≤ (9 : BitVec 16).toNat ∧ (9 : BitVec 16).toNat ≤ arith.cfg.ps.n) ∧
    (1 ≤ (1 : BitVec 16).toNat ∧ (1 : BitVec 16).toNat ≤ arith.cfg.ps.n) ∧
    (1 ≤ (8 : BitVec 16).toNat ∧ (8 : BitVec 16).toNat ≤ arith.cfg.ps.n) := by decide

/-- A descriptor the decoder rejects, and an UNPACK with `n1 = 0`. -/
theorem witness_UnacceptedDescriptorEndsWithIllegalCommand :
    (withMove arith (.writeReg 0x01 0)).host = .writeReg 0x01 0 :: [] ∧
    (¬ ∃ i, decode ⟨0, arith.cmd1, arith.cmd2, arith.cmd3⟩ = .ok i ∧
      i.wellFormed arith.cfg.ps = true) ∧
    ¬ ∃ i, decode ⟨0x13400000, 0, 0, 0x00000002⟩ = .ok i ∧ i.wellFormed arith.cfg.ps = true := by
  refine ⟨rfl, ?_, ?_⟩
  · rintro ⟨i, h, -⟩
    cases h
  · rintro ⟨i, h, hw⟩
    cases h
    revert hw
    decide

theorem witness_MulWritesTheReducedProduct :
    arith.matrixAt .m0 = some A23 ∧ arith.matrixAt .m1 = some B32 ∧ A23.cols = B32.rows := by decide

theorem witness_MacWritesTheReducedProductPlusAddend :
    arith.matrixAt .m0 = some A23 ∧ arith.matrixAt .m1 = some B32 ∧ arith.matrixAt .m2 = some E22 ∧
    A23.cols = B32.rows ∧ E22.rows = A23.rows ∧ E22.cols = B32.cols := by decide

theorem witness_AddWritesTheReducedSum :
    arith.matrixAt .m2 = some E22 ∧ arith.matrixAt .m2 = some E22 ∧ E22.rows = E22.rows ∧
    E22.cols = E22.cols := by decide

theorem witness_SubWritesTheReducedDifference :
    arith.matrixAt .m0 = some A23 ∧ arith.matrixAt .m0 = some A23 ∧ A23.rows = A23.rows ∧
    A23.cols = A23.cols ∧ A23.Legal arith.cfg.ps := ⟨by decide, by decide, rfl, rfl, A23_legal⟩

/-- Sources that fit and sources that do not, for each of the four commands; `A23` and `B32` have as many
entries. -/
theorem witness_ArithmeticShapeRule :
    arith.matrixAt .m0 = some A23 ∧ arith.matrixAt .m1 = some B32 ∧ arith.matrixAt .m2 = some E22 ∧
    A23.cols = B32.rows ∧ A23.cols ≠ A23.rows ∧
    (A23.cols = B32.rows ∧ E22.rows = A23.rows ∧ E22.cols = B32.cols) ∧
    ¬ (A23.cols = B32.rows ∧ A23.rows = A23.rows ∧ A23.cols = B32.cols) ∧
    (E22.rows = E22.rows ∧ E22.cols = E22.cols) ∧
    ¬ (A23.rows = B32.rows ∧ A23.cols = B32.cols) := by decide

theorem witness_ArithmeticEntriesAreReduced :
    Ends (.mul .m3 .m0 .m1) arith ∧ Ends (.mac .m3 .m0 .m1 .m2) arith ∧
    Ends (.add .m3 .m2 .m2) arith ∧ Ends (.sub .m3 .m2 .m2) arith :=
  ⟨⟨_, rfl, rfl⟩, ⟨_, rfl, rfl⟩, ⟨_, rfl, rfl⟩, ⟨_, rfl, rfl⟩⟩

/-- Two states that agree on the sources alone. -/
theorem witness_ArithmeticIsPure : arith.cfg.ps.D = toyPS.D ∧
    (∀ r ∈ sources (.mul .m3 .m0 .m1), arith.matrixAt r =
      (stateOf (small toyPS) (some A23) (some B32) none (memoryOf 0 [1])).matrixAt r) ∧
    Ends (.mul .m3 .m0 .m1) arith ∧
    Ends (.mul .m3 .m0 .m1) (stateOf (small toyPS) (some A23) (some B32) none (memoryOf 0 [1])) :=
  ⟨rfl, by decide, ⟨_, rfl, rfl⟩, ⟨_, rfl, rfl⟩⟩

/-- `E22` three times for the first two clauses, `A23`, `B32`, `E22` for the third. -/
theorem witness_AdditiveRingLaws :
    A23.Legal toyPS ∧ B32.Legal toyPS ∧ E22.Legal toyPS ∧
    (E22.rows = E22.rows ∧ E22.cols = E22.cols) ∧
    (A23.cols = B32.rows ∧ E22.rows = A23.rows ∧ E22.cols = B32.cols) :=
  ⟨A23_legal, B32_legal, E22_legal, by decide, by decide⟩

/-- `A23`, `B32`, `E22` for the first clause; `A23`, `B32`, `B32` and `A23`, `A23`, `B32` for the others. -/
theorem witness_MultiplicativeRingLaws :
    A23.Legal toyPS ∧ B32.Legal toyPS ∧ E22.Legal toyPS ∧
    (A23.cols = B32.rows ∧ B32.cols = E22.rows) ∧
    (A23.cols = B32.rows ∧ B32.rows = B32.rows ∧ B32.cols = B32.cols) ∧
    (A23.rows = A23.rows ∧ A23.cols = A23.cols ∧ A23.cols = B32.rows) :=
  ⟨A23_legal, B32_legal, E22_legal, by decide, by decide, by decide⟩

/-- The last byte of `DMEM` (V38d). -/
theorem witness_EncPutsThePlaintextBitsOnTop :
    (1 : Word).toNat = (arith.cfg.ps.B * arith.cfg.ps.m * arith.cfg.ps.nCols + 7) / 8 ∧
    (0xFF : Word).toNat + (1 : Word).toNat ≤ arith.cfg.dmemSize := by decide

/-- TOY: the tie 4 and the wrap 28; a set with `B = D` and its largest entry. -/
theorem witness_DecodeRoundsHalfUp :
    (4 < 2 ^ toyPS.D ∧ toyPS.B < toyPS.D ∧
      4 % 2 ^ (toyPS.D - toyPS.B) = 2 ^ (toyPS.D - toyPS.B - 1)) ∧
    (28 < 2 ^ toyPS.D ∧ 2 ^ toyPS.D - 2 ^ (toyPS.D - toyPS.B - 1) ≤ 28) ∧
    15 < 2 ^ fullPS.D ∧ fullPS.B = fullPS.D := by decide

/-- The largest `v`, and `d` at both ends of its range and at the tie. -/
theorem witness_DecodeMarginIsExact : toyPS.B < toyPS.D ∧ 3 < 2 ^ toyPS.B ∧
    (-(2 ^ (toyPS.D - 1) : Nat) ≤ (-16 : Int) ∧ (15 : Int) < (2 ^ (toyPS.D - 1) : Nat)) ∧
    (4 : Int) = (2 ^ (toyPS.D - toyPS.B - 1) : Nat) ∧
    (fullPS.B = fullPS.D ∧ 15 < 2 ^ fullPS.B ∧
      (-(2 ^ (fullPS.D - 1) : Nat) ≤ (0 : Int) ∧ (0 : Int) < (2 ^ (fullPS.D - 1) : Nat))) ∧
    0x2FFF < 2 ^ 15 := by decide

theorem witness_DecWritesTheRoundedCells : arith.dmem.wf = true ∧ arith.matrixAt .m2 = some E22 ∧
    E22.rows.toNat = arith.cfg.ps.m ∧ E22.cols.toNat = arith.cfg.ps.nCols ∧
    (1 : Word).toNat = (arith.cfg.ps.B * arith.cfg.ps.m * arith.cfg.ps.nCols + 7) / 8 ∧
    (0xFF : Word).toNat + (1 : Word).toNat ≤ arith.cfg.dmemSize := by decide

/-- Noise at the largest magnitude the bound allows, 3 and -3. -/
def noise : Machine.Matrix := ⟨2, 2, [3, 29, 3, 29]⟩

/-- All but the clauses on `noise` are the hypotheses of the part without noise. -/
theorem witness_DecodeOfEncodePlusNoiseIsThePlaintext :
    (toy noise 0 [0xB4]).dmem.wf = true ∧ MReg.m1 ≠ MReg.m0 ∧
    (toy noise 0 [0xB4]).matrixAt .m0 = some noise ∧ noise.Legal toyPS ∧
    noise.rows.toNat = toyPS.m ∧ noise.cols.toNat = toyPS.nCols ∧
    (∀ e ∈ noise.entries, magnitude toyPS.D e < 2 ^ (toyPS.D - toyPS.B - 1)) ∧
    (1 : Word).toNat = (toyPS.B * toyPS.m * toyPS.nCols + 7) / 8 ∧
    (0 : Word).toNat + (1 : Word).toNat ≤ (toy noise 0 [0xB4]).cfg.dmemSize ∧
    (0xFF : Word).toNat + (1 : Word).toNat ≤ (toy noise 0 [0xB4]).cfg.dmemSize ∧
    ∀ p, toyPS.B * toyPS.m * toyPS.nCols ≤ p → p < 8 * (1 : Word).toNat →
      getbit ((toy noise 0 [0xB4]).dmem.readBytes (0 : Word).toNat (1 : Word).toNat) p = false :=
  ⟨by decide, by decide, by decide, legal (by decide), by decide, by decide,
    fun e he => by
      simp only [noise, List.mem_cons, List.not_mem_nil, or_false] at he
      rcases he with rfl | rfl | rfl | rfl <;> decide,
    by decide, by decide, by decide, fun p h h' => by
      simp [toyPS] at h h'; omega⟩

theorem witness_PackWritesTheEntriesBitByBit : arith.dmem.wf = true ∧
    arith.matrixAt .m2 = some E22 ∧
    (arith.cfg.ps.D * E22.rows.toNat * E22.cols.toNat + 7) / 8 ≤ (3 : Word).toNat ∧
    (0xFD : Word).toNat + (3 : Word).toNat ≤ arith.cfg.dmemSize := by decide

theorem witness_UnpackReadsTheEntriesBitByBit :
    (1 ≤ (1 : BitVec 16).toNat ∧ (1 : BitVec 16).toNat ≤ arith.cfg.ps.n) ∧
    (1 ≤ (8 : BitVec 16).toNat ∧ (8 : BitVec 16).toNat ≤ arith.cfg.ps.n) ∧
    (arith.cfg.ps.D * (1 : BitVec 16).toNat * (8 : BitVec 16).toNat + 7) / 8 ≤ (5 : Word).toNat ∧
    (0xFB : Word).toNat + (5 : Word).toNat ≤ arith.cfg.dmemSize := by decide

theorem witness_UnpackOfPackIsTheMatrix : arith.dmem.wf = true ∧ arith.matrixAt .m2 = some E22 ∧
    E22.Legal arith.cfg.ps ∧
    (3 : Word).toNat = (arith.cfg.ps.D * E22.rows.toNat * E22.cols.toNat + 7) / 8 ∧
    (0xFD : Word).toNat + (3 : Word).toNat ≤ arith.cfg.dmemSize :=
  ⟨by decide, by decide, E22_legal, by decide, by decide⟩

theorem witness_PackOfUnpackClearsThePadBits : buffers.dmem.wf = true ∧
    (1 ≤ (2 : BitVec 16).toNat ∧ (2 : BitVec 16).toNat ≤ buffers.cfg.ps.n) ∧
    (3 : Word).toNat =
      (buffers.cfg.ps.D * (2 : BitVec 16).toNat * (2 : BitVec 16).toNat + 7) / 8 ∧
    (0 : Word).toNat + (3 : Word).toNat ≤ buffers.cfg.dmemSize ∧
    (0xFD : Word).toNat + (3 : Word).toNat ≤ buffers.cfg.dmemSize := by decide

theorem witness_EncodeIsUnpackWhenBitsFillTheElement :
    (small fullPS).ps.B = (small fullPS).ps.D ∧
    (2 : Word).toNat = (fullPS.B * fullPS.m * fullPS.nCols + 7) / 8 ∧
    (stateOf (small fullPS) (some ⟨2, 2, [15, 0, 1, 8]⟩) none none (memoryOf 0 [])).matrixAt .m0 =
      some ⟨2, 2, [15, 0, 1, 8]⟩ ∧
    Matrix.Legal fullPS ⟨2, 2, [15, 0, 1, 8]⟩ ∧
    (2 : BitVec 16).toNat = fullPS.m ∧ (2 : BitVec 16).toNat = fullPS.nCols :=
  ⟨by decide, by decide, by decide, legal (by decide), by decide, by decide⟩

theorem witness_XofOutputHasItsLengthAndExtends : 0 ≤ 16 ∧ 168 ≤ 168 ∧ 168 ≤ 169 := by decide

theorem witness_GenExpandsTheSeedRowByRow : (16 : Word).toNat = arith.cfg.ps.lenSeedA / 8 ∧
    (0xF0 : Word).toNat + (16 : Word).toNat ≤ arith.cfg.dmemSize := by decide

/-- Two states with the same seed at different addresses and other registers. -/
theorem witness_GenDependsOnTheSeedAlone : arith.cfg.ps = (toy E22 0x20 [1]).cfg.ps ∧
    (∀ k, k < arith.cfg.ps.lenSeedA / 8 → arith.dmem.read ((0 : Word).toNat + k) =
      (toy E22 0x20 [1]).dmem.read ((0x40 : Word).toNat + k)) ∧
    Ends (.gen .m0 0 16) arith ∧ Ends (.gen .m5 0x40 16) (toy E22 0x20 [1]) :=
  ⟨rfl, by decide, ⟨_, rfl, rfl⟩, ⟨_, rfl, rfl⟩⟩

theorem witness_SampWritesTheResiduesOfTheSamples :
    (1 ≤ (1 : BitVec 16).toNat ∧ (1 : BitVec 16).toNat ≤ buffers.cfg.ps.n) ∧
    (1 ≤ (8 : BitVec 16).toNat ∧ (8 : BitVec 16).toNat ≤ buffers.cfg.ps.n) ∧
    (16 : Word).toNat = 2 * (1 : BitVec 16).toNat * (8 : BitVec 16).toNat ∧
    (0xF0 : Word).toNat + (16 : Word).toNat ≤ buffers.cfg.dmemSize := by decide

/-- Entry (1, 3), the last, of two buffers that differ in their first byte. -/
theorem witness_SampEntriesAreIndependent : buffers.cfg = (toy E22 15 [0xE0]).cfg ∧
    1 < (2 : BitVec 16).toNat ∧ 3 < (4 : BitVec 16).toNat ∧
    buffers.dmem.read ((0 : Word).toNat + 2 * (1 * (4 : BitVec 16).toNat + 3)) =
      (toy E22 15 [0xE0]).dmem.read ((0 : Word).toNat + 2 * (1 * (4 : BitVec 16).toNat + 3)) ∧
    buffers.dmem.read ((0 : Word).toNat + 2 * (1 * (4 : BitVec 16).toNat + 3) + 1) =
      (toy E22 15 [0xE0]).dmem.read ((0 : Word).toNat + 2 * (1 * (4 : BitVec 16).toNat + 3) + 1) ∧
    (∃ t P, exec (.samp .m1 0 16 2 4) buffers = .next t ∧ t.err = 0 ∧ t.matrixAt .m1 = some P) ∧
    ∃ t P, exec (.samp .m1 0 16 2 4) (toy E22 15 [0xE0]) = .next t ∧ t.matrixAt .m1 = some P :=
  ⟨by decide, by decide, by decide, by decide, by decide, ⟨_, _, rfl, rfl, rfl⟩, ⟨_, _, rfl, rfl⟩⟩

/-- `MAC` with an invalid addend, `GEN` with a register that is no source, `CLR` of an invalid one. -/
theorem witness_InvalidSourceEndsWithUninitRegister :
    (∃ r ∈ sources (.mac .m0 .m0 .m1 .m5), arith.matrixAt r = none) ∧
    (MReg.m3 ∉ sources (.mul .m3 .m0 .m1) ∧ Ends (.mul .m3 .m0 .m1) arith ∧
      Ends (.mul .m3 .m0 .m1) { arith with mr := arith.mr.set .m3 (some E22) }) ∧
    arith.matrixAt .m3 = none :=
  ⟨⟨.m5, by decide, by decide⟩, ⟨by decide, ⟨_, rfl, rfl⟩, ⟨_, rfl, rfl⟩⟩, by decide⟩

/-- Lengths one below and one above the right one, and a 2 by 3 matrix for `DEC`. -/
theorem witness_WrongLengthEndsWithItsError :
    (0 : Word).toNat ≠ (arith.cfg.ps.B * arith.cfg.ps.m * arith.cfg.ps.nCols + 7) / 8 ∧
    (2 : Word).toNat ≠ (arith.cfg.ps.B * arith.cfg.ps.m * arith.cfg.ps.nCols + 7) / 8 ∧
    (arith.matrixAt .m0 = some A23 ∧
      ¬ (A23.rows.toNat = arith.cfg.ps.m ∧ A23.cols.toNat = arith.cfg.ps.nCols)) ∧
    (arith.matrixAt .m2 = some E22 ∧ E22.rows.toNat = arith.cfg.ps.m ∧
      E22.cols.toNat = arith.cfg.ps.nCols) ∧
    (2 : Word).toNat < (arith.cfg.ps.D * E22.rows.toNat * E22.cols.toNat + 7) / 8 ∧
    (1 ≤ (2 : BitVec 16).toNat ∧ (2 : BitVec 16).toNat ≤ arith.cfg.ps.n) ∧
    (2 : Word).toNat < (arith.cfg.ps.D * (2 : BitVec 16).toNat * (2 : BitVec 16).toNat + 7) / 8 ∧
    ((15 : Word).toNat ≠ arith.cfg.ps.lenSeedA / 8 ∧ (17 : Word).toNat ≠ arith.cfg.ps.lenSeedA / 8) ∧
    (7 : Word).toNat ≠ 2 * (2 : BitVec 16).toNat * (2 : BitVec 16).toNat ∧
    (9 : Word).toNat ≠ 2 * (2 : BitVec 16).toNat * (2 : BitVec 16).toNat := by decide

/-- Each of the six commands; and an address at the end of `DMEM`, one past it, and at `2^32 - 1`. -/
theorem witness_BufferOutsideMemoryEndsWithAddressRange :
    (1 : Word).toNat = (arith.cfg.ps.B * arith.cfg.ps.m * arith.cfg.ps.nCols + 7) / 8 ∧
    (arith.matrixAt .m2 = some E22 ∧ E22.rows.toNat = arith.cfg.ps.m ∧
      E22.cols.toNat = arith.cfg.ps.nCols) ∧
    (arith.cfg.ps.D * E22.rows.toNat * E22.cols.toNat + 7) / 8 ≤ (3 : Word).toNat ∧
    (1 ≤ (2 : BitVec 16).toNat ∧ (2 : BitVec 16).toNat ≤ arith.cfg.ps.n) ∧
    (arith.cfg.ps.D * (2 : BitVec 16).toNat * (2 : BitVec 16).toNat + 7) / 8 ≤ (3 : Word).toNat ∧
    (16 : Word).toNat = arith.cfg.ps.lenSeedA / 8 ∧
    (8 : Word).toNat = 2 * (2 : BitVec 16).toNat * (2 : BitVec 16).toNat ∧
    (0xFF : Word).toNat + (1 : Word).toNat ≤ arith.cfg.dmemSize ∧
    arith.cfg.dmemSize < (0x100 : Word).toNat + (1 : Word).toNat ∧
    arith.cfg.dmemSize < (0xFFFFFFFF : Word).toNat + (3 : Word).toNat := by decide

theorem witness_ErrorChangesNothingButStatus :
    ∃ t, arith.issue ⟨0x01600000, 0, 0, 0⟩ = .next t ∧ t.err ≠ 0 := ⟨_, rfl, by decide⟩

/-- A command that completes and one that errs; a step that is no reset on a state with a bit set. -/
theorem witness_EstickyAccumulatesUntilReset :
    (∃ t, arith.issue ⟨0x01608000, 0, 0, 0⟩ = .next t ∧ t.err = 0) ∧
    (∃ t, arith.issue ⟨0x01600000, 0, 0, 0⟩ = .next t ∧ t.err ≠ 0) ∧
    ∃ t, step (withMove (arith.raise .addressRange) (.readReg 0)) = .next t ∧
      (∀ c rest, (withMove (arith.raise .addressRange) (.readReg 0)).host ≠ .reset c :: rest) ∧
      (arith.raise .addressRange).esticky.getLsbD 7 = true :=
  ⟨⟨_, rfl, rfl⟩, ⟨_, rfl, by decide⟩, ⟨_, rfl, by simp [withMove], by decide⟩⟩

theorem witness_CommandEndsWithAPossibleCode :
    (∃ t, arith.issue ⟨0x01608000, 0, 0, 0⟩ = .next t) ∧
    ∃ t, arith.issue ⟨0xFF000000, 0, 0, 0⟩ = .next t := ⟨⟨_, rfl⟩, ⟨_, rfl⟩⟩

/-- One move of each kind; memory accesses at the last byte; register numbers at the ends. -/
theorem witness_HostMovesDoWhatTheTableSays : arith.dmem.wf = true ∧ 0xFF < arith.cfg.dmemSize ∧
    (∀ a ∈ ([.writeByte 0xFF 1, .readByte 0xFF, .writeReg 0x02 1, .writeReg 0x03 1, .writeReg 0x04 1,
      .writeReg 0x01 0x01608000, .writeReg 0x05 1, .writeReg 0 1, .readReg 0x17, .reset 5] :
        List HostAction), (withMove arith a).host = a :: []) ∧
    0x00 ∉ [0x01, 0x02, 0x03, 0x04] ∧ 0x05 ∉ [0x01, 0x02, 0x03, 0x04] := by decide

/-- A write of each register, a reset, a command, and moves of every other kind (or none). -/
theorem witness_HoldingRegistersHoldTheLastValue :
    (∀ r ∈ [0x02, 0x03, 0x04],
      (withMove arith (.writeReg r 0x12345678)).host = .writeReg r 0x12345678 :: []) ∧
    0x03 ≠ 0x02 ∧ (withMove arith (.reset 5)).host = .reset 5 :: [] ∧
    (∃ t, arith.issue ⟨0x01608000, 0, 0, 0⟩ = .next t) ∧
    (∀ a ∈ ([.writeByte 0xFF 1, .readByte 0xFF, .readReg 0x02, .writeReg 0x03 1, .writeReg 0x05 1,
      .writeReg 0x01 0] : List HostAction), a ≠ .writeReg 0x02 1 ∧ nextIs (step (withMove arith a))
        fun _ => true) ∧
    (∃ t, step arith = .next t) ∧ (∃ t, step (withMove arith (.writeByte 0xFF 1)) = .next t) ∧
    (∀ c rest, (withMove arith (.writeByte 0xFF 1)).host ≠ .reset c :: rest) ∧
    ∀ w rest, (withMove arith (.writeByte 0xFF 1)).host ≠ .writeReg 0x02 w :: rest :=
  ⟨by decide, by decide, by decide, ⟨_, rfl⟩, by decide +kernel, ⟨_, rfl⟩, ⟨_, rfl⟩,
    by simp [withMove], by simp [withMove]⟩

theorem witness_ParamRegistersAreConstant :
    (∃ t, step (withMove arith (.writeReg 0x01 0x01608000)) = .next t) ∧
    (withMove arith (.writeReg 0x0D 1)).host = .writeReg 0x0D 1 :: [] ∧
    State.reset.cfg.ps.toParams =
      { ParamSet.frodo640.toParams with lenSeedSE := State.reset.cfg.ps.lenSeedSE } ∧
    State.reset.cfg.dmemSize = 0x100000 := ⟨⟨_, rfl⟩, by decide, by decide, by decide⟩

theorem witness_StatusHasItsLayout :
    0 < 32 ∧ 31 < 32 ∧ (withMove arith (.writeReg 0x00 1)).host = .writeReg 0x00 1 :: [] := by decide

/-- A valid and an invalid register, the invariant, a write to `MRSHAPE[7]`, and `GEN m0` on FRODO-640. -/
theorem witness_MrShapeShowsShapeAndValidity :
    arith.matrixAt .m0 = some A23 ∧ arith.matrixAt .m7 = none ∧ arith.Inv ∧
    (withMove arith (.writeReg (0x10 + MReg.m7.toBits.toNat) 1)).host =
      .writeReg (0x10 + MReg.m7.toBits.toNat) 1 :: [] ∧
    State.reset.cfg.ps.n = 640 ∧ Ends (.gen .m0 0 16) State.reset :=
  ⟨by decide, by decide, arith_inv, by decide, by decide, ⟨_, rfl, rfl⟩⟩

theorem witness_UndefinedRegistersReadZeroAndIgnoreWrites :
    (0x0F ∈ [0x05, 0x06, 0x07, 0x0E, 0x0F] ∧ 0x18 ≤ 0x18) ∧
    (withMove arith (.readReg 0x01)).host = .readReg 0x01 :: [] ∧
    (withMove arith (.readReg 0x18)).host = .readReg 0x18 :: [] ∧
    0x00 ∉ [0x01, 0x02, 0x03, 0x04] ∧
    (withMove arith (.writeReg 0x00 1)).host = .writeReg 0x00 1 :: [] := by decide

/-- Two states that differ in one entry, and the read of a shape. -/
theorem witness_HostCannotReachTheEntries :
    let s := withMove arith (.readReg 0x12)
    let s' := { s with mr := s.mr.set .m2 (some ⟨2, 2, [0, 0, 1, 2]⟩) }
    s' = { s with mr := s'.mr } ∧ (∀ r, SameShape (s.matrixAt r) (s'.matrixAt r)) ∧
    s.host = .readReg 0x12 :: [] ∧ (∀ w, HostAction.readReg 0x12 ≠ .writeReg 0x01 w) ∧
    (∃ t, step s = .next t) ∧ ∃ t, step s' = .next t :=
  ⟨rfl, fun r => by cases r <;> first | exact trivial | exact ⟨rfl, rfl⟩, rfl, by simp, ⟨_, rfl⟩,
    ⟨_, rfl⟩⟩

theorem witness_EveryStepKeepsTheInvariant :
    (withMove arith (.writeReg 0x01 0x01608000)).Inv ∧
    ∃ t, step (withMove arith (.writeReg 0x01 0x01608000)) = .next t := ⟨arith_inv, ⟨_, rfl⟩⟩

theorem witness_ConfigurationNeverChanges :
    (∃ t, step (withMove arith (.writeReg 0x01 0x01608000)) = .next t) ∧
    ∃ t, step (withMove arith (.reset 5)) = .next t := ⟨⟨_, rfl⟩, ⟨_, rfl⟩⟩

theorem witness_ResetLeavesTheTabledState : arith.cfg = small toyPS ∧ 0x0D ∈ [0x0C, 0x0D] ∧
    0xFF < (small toyPS).dmemSize := by decide

theorem witness_ResetForgetsTheMatrices :
    let s := withMove arith (.reset 5)
    let s' := { s with mr := MatrixRegs.allInvalid }
    s.host = .reset 5 :: [] ∧ s' = { s with mr := s'.mr } := ⟨rfl, rfl⟩

/-- A reset on a state with a sticky bit set, and a `CLR m2` of a valid register. -/
theorem witness_OnlyResetAndClrInvalidate :
    (∃ t, step (withMove (arith.raise .addressRange) (.reset 5)) = .next t ∧
      (arith.raise .addressRange).esticky ≠ 0 ∧ t.esticky = 0) ∧
    ∃ t, step (withMove arith (.writeReg 0x01 0x30400000)) = .next t ∧
      arith.matrixAt .m2 ≠ none ∧ t.matrixAt .m2 = none :=
  ⟨⟨_, rfl, by decide, rfl⟩, ⟨_, rfl, by decide, rfl⟩⟩

/-- `PACK` and `ENC` on two states that agree on what each reads and differ elsewhere. -/
theorem witness_CommandDependsOnlyOnWhatItReads :
    let s := toy E22 0 [0xB4]
    let s' := stateOf (small toyPS) (some E22) (some B32) none (memoryOf 0 [0xB4, 7])
    s.cfg = s'.cfg ∧ s.dmem.wf = true ∧ s'.dmem.wf = true ∧
    (∀ r ∈ sources (.pack 0x80 3 .m0), s.matrixAt r = s'.matrixAt r) ∧
    (∀ k, k < (inputRange s.cfg.ps (.enc .m2 0 1)).2 →
      s.dmem.read ((inputRange s.cfg.ps (.enc .m2 0 1)).1 + k) =
        s'.dmem.read ((inputRange s.cfg.ps (.enc .m2 0 1)).1 + k)) ∧
    (s.esticky = s'.esticky ∧ s.cmd1 = s'.cmd1 ∧ s.cmd2 = s'.cmd2 ∧ s.cmd3 = s'.cmd3) ∧
    Ends (.enc .m2 0 1) s ∧ Ends (.enc .m2 0 1) s' ∧ Ends (.pack 0x80 3 .m0) s ∧
    Ends (.pack 0x80 3 .m0) s' :=
  ⟨rfl, by decide, by decide, by decide, by decide, ⟨rfl, rfl, rfl, rfl⟩, ⟨_, rfl, rfl⟩, ⟨_, rfl, rfl⟩,
    ⟨_, rfl, rfl⟩, ⟨_, rfl, rfl⟩⟩

/-- An idle state, a move inside the block at its last byte, and the first offset outside it. -/
theorem witness_StepStopsOnlyOutsideTheBlock : arith.host = [] ∧
    HostAction.inBlock arith.cfg (.readByte 0xFF) = true ∧
    (withMove arith (.writeByte 0x100 1)).host = .writeByte 0x100 1 :: [] ∧
    (withMove arith (.readByte 0x100)).host = .readByte 0x100 :: [] ∧
    arith.cfg.dmemSize ≤ 0x100 := by decide

end Witnesses

end Sys2Proof.Tests
end

namespace Sys2Proof.Machine

/-! SUPPORT. What a command, a move of the host and a step can do, each said once: a command is the end
of its checks, a descriptor raises an error or performs one write (30_encoding.md R92, R93), and a step
serves one move (20_memory.md R68). -/

section Commands

/-- What a command writes, or its first check that fails (30_encoding.md R92, R93). -/
def effectOf (i : Instr) (s : State) : Except ErrorCode Effect :=
  match i with
  | .mul md ma mb => mulEffect md ma mb s
  | .mac md ma mb me => macEffect md ma mb me s
  | .add md ma mb => addEffect md ma mb s
  | .sub md ma mb => subEffect md ma mb s
  | .enc md addr len => encEffect md addr len s
  | .dec addr len ma => decEffect addr len ma s
  | .pack addr len ma => packEffect addr len ma s
  | .unpack md addr len n1 n2 => unpackEffect md addr len n1 n2 s
  | .gen md addr len => genEffect md addr len s
  | .samp md addr len n1 n2 => sampEffect md addr len n1 n2 s
  | .clr md => .ok (.invalidate md)

/-- Every command is the end of its checks (30_encoding.md R92). -/
theorem exec_eq_finish (i : Instr) (s : State) : exec i s = s.finish (effectOf i s) := by
  cases i <;> rfl

/-- A command raises its first failing check or performs its one write. -/
theorem exec_cases {i : Instr} {s t : State} (h : exec i s = .next t) :
    (∃ e, effectOf i s = .error e ∧ t = s.raise e) ∨
    (∃ w, effectOf i s = .ok w ∧ t = (s.apply w).complete) :=
  finish_cases (exec_eq_finish i s ▸ h)

theorem issue_of_decode_ok {s : State} {d : Descriptor} {i : Instr} (h : decode d = .ok i) :
    s.issue d = exec i s := by simp [State.issue, h]

theorem issue_of_decode_rejected {s : State} {d : Descriptor} {e : DecodeError}
    (h : decode d = .rejected e) : s.issue d = .next (s.raise .illegalCommand) := by
  simp [State.issue, h]

/-- A descriptor ends with an error completion, or with the one write of the command it stands for. -/
theorem issue_cases {s t : State} {d : Descriptor} (h : s.issue d = .next t) :
    (∃ e, t = s.raise e) ∨
    (∃ i w, decode d = .ok i ∧ effectOf i s = .ok w ∧ t = (s.apply w).complete) := by
  cases hd : decode d with
  | rejected e =>
    rw [issue_of_decode_rejected hd] at h
    exact .inl ⟨_, by simpa using h.symm⟩
  | ok i =>
    rw [issue_of_decode_ok hd] at h
    obtain ⟨e, -, rfl⟩ | ⟨w, hw, rfl⟩ := exec_cases h
    · exact .inl ⟨e, rfl⟩
    · exact .inr ⟨i, w, rfl, hw, rfl⟩

end Commands

section Apply
variable (s : State) (w : Effect)

@[simp] theorem State.apply_matrix (d : MReg) (M : Matrix) :
    s.apply (.matrix d M) = s.writeMatrix d M := rfl
@[simp] theorem State.apply_cfg : (s.apply w).cfg = s.cfg := by cases w <;> rfl
@[simp] theorem State.apply_esticky : (s.apply w).esticky = s.esticky := by cases w <;> rfl
@[simp] theorem State.apply_cmd1 : (s.apply w).cmd1 = s.cmd1 := by cases w <;> rfl
@[simp] theorem State.apply_cmd2 : (s.apply w).cmd2 = s.cmd2 := by cases w <;> rfl
@[simp] theorem State.apply_cmd3 : (s.apply w).cmd3 = s.cmd3 := by cases w <;> rfl
@[simp] theorem State.apply_host : (s.apply w).host = s.host := by cases w <;> rfl
@[simp] theorem State.apply_reply : (s.apply w).reply = s.reply := by cases w <;> rfl

/-- No command touches the holding registers, the configuration or the host's side. -/
theorem issue_registersKept {s t : State} {d : Descriptor} (h : s.issue d = .next t) :
    RegistersKept s t := by
  obtain ⟨e, rfl⟩ | ⟨i, w, -, -, rfl⟩ := issue_cases h <;> simp [RegistersKept]

end Apply

section Steps

theorem writeReg_ignored (s : State) {r : Nat} (w : Word) (hr : r ∉ [0x01, 0x02, 0x03, 0x04]) :
    s.writeReg r w = .next s := by
  unfold State.writeReg
  split <;> simp_all

/-- What serving one move can do: `Served s a t` when the move `a`, already taken from the list of `s`,
can lead to `t` (20_memory.md R68). -/
inductive Served (s : State) : HostAction → State → Prop
  | writeByte {a : Nat} (v : Byte) (inside : a < s.cfg.dmemSize) :
    Served s (.writeByte a v) { s with dmem := s.dmem.write a v }
  | readByte {a : Nat} (inside : a < s.cfg.dmemSize) :
    Served s (.readByte a) { s with reply := .byte (s.dmem.read a) }
  | issue {w : Word} {t : State} (ends : s.issue (s.descriptor w) = .next t) :
    Served s (.writeReg 0x01 w) t
  | writeCmd1 (w : Word) : Served s (.writeReg 0x02 w) { s with cmd1 := w }
  | writeCmd2 (w : Word) : Served s (.writeReg 0x03 w) { s with cmd2 := w }
  | writeCmd3 (w : Word) : Served s (.writeReg 0x04 w) { s with cmd3 := w }
  | ignored {r : Nat} (w : Word) (other : r ∉ [0x01, 0x02, 0x03, 0x04]) :
    Served s (.writeReg r w) s
  | readReg (r : Nat) : Served s (.readReg r) { s with reply := .word (s.readReg r) }
  | reset (c : Nat) : Served s (.reset c) (s.resetMove c)

theorem writeReg_served {s t : State} {r : Nat} {w : Word} (h : s.writeReg r w = .next t) :
    Served s (.writeReg r w) t := by
  unfold State.writeReg at h
  split at h
  · exact .issue h
  · cases h; exact .writeCmd1 w
  · cases h; exact .writeCmd2 w
  · cases h; exact .writeCmd3 w
  · cases h; exact .ignored w (by simp_all)

/-- `Served` says all that a move can do. -/
theorem move_served {s t : State} {a : HostAction} (h : s.move a = .next t) : Served s a t := by
  cases a with
  | writeByte a v =>
    simp only [State.move] at h
    split at h <;> cases h
    exact .writeByte v ‹_›
  | readByte a =>
    simp only [State.move] at h
    split at h <;> cases h
    exact .readByte ‹_›
  | writeReg r w => exact writeReg_served h
  | readReg r => cases h; exact .readReg r
  | reset c => cases h; exact .reset c

theorem step_of_host_cons {s : State} {a : HostAction} {rest : List HostAction}
    (h : s.host = a :: rest) : step s = (s.takeMove rest).move a := by simp [step, h]

/-- A step idles or serves the oldest of the coming moves. -/
theorem step_cases {s t : State} (h : step s = .next t) :
    (s.host = [] ∧ t = s) ∨ ∃ a rest, s.host = a :: rest ∧ Served (s.takeMove rest) a t := by
  cases hh : s.host with
  | nil => exact .inl ⟨rfl, by simpa [step, hh] using h.symm⟩
  | cons a rest => exact .inr ⟨a, rest, rfl, move_served (step_of_host_cons hh ▸ h)⟩

theorem step_writeReg {s : State} {r : Nat} {w : Word} {rest : List HostAction}
    (h : s.host = .writeReg r w :: rest) : step s = (s.takeMove rest).writeReg r w :=
  step_of_host_cons h

/-- A write of a register that is not `CMD0` to `CMD3` does nothing (10_state.md R41). -/
theorem step_writeReg_ignored {s : State} {r : Nat} {w : Word} {rest : List HostAction}
    (hr : r ∉ [0x01, 0x02, 0x03, 0x04]) (h : s.host = .writeReg r w :: rest) :
    step s = .next { s with host := rest, reply := .nothing } := by
  rw [step_writeReg h, writeReg_ignored _ w hr]
  rfl

theorem step_readReg {s : State} {r : Nat} {rest : List HostAction}
    (h : s.host = .readReg r :: rest) :
    step s = .next { s with host := rest, reply := .word (s.readReg r) } :=
  step_of_host_cons h

/-- A reset leaves the state after reset of the same configuration (70_reset_and_hazards.md R261). -/
theorem step_reset {s : State} {c : Nat} {rest : List HostAction}
    (h : s.host = .reset c :: rest) :
    step s = .next { State.afterReset s.cfg c with host := rest } :=
  step_of_host_cons h

/-- Serving a move leaves the configuration alone (00_scope.md R6). -/
theorem Served.cfg_eq {s t : State} {a : HostAction} (h : Served s a t) : t.cfg = s.cfg := by
  cases h with
  | issue ends =>
    obtain ⟨-, -, -, hcfg, -, -⟩ := issue_registersKept ends
    exact hcfg
  | _ => rfl

theorem step_cfg {s t : State} (h : step s = .next t) : t.cfg = s.cfg := by
  obtain ⟨-, rfl⟩ | ⟨a, rest, -, served⟩ := step_cases h
  · rfl
  · rw [served.cfg_eq, State.takeMove_cfg]

end Steps

/-! SUPPORT. The registers of the control window (10_state.md R32 to R41). -/

section ControlWindow

theorem readReg_status (s : State) : s.readReg 0x00 = statusWord s.err s.esticky := rfl

/-- Equal holding registers read alike (10_state.md R37). -/
theorem readReg_holding_congr {s t : State} (h1 : t.cmd1 = s.cmd1) (h2 : t.cmd2 = s.cmd2)
    (h3 : t.cmd3 = s.cmd3) : ∀ r ∈ [0x02, 0x03, 0x04], t.readReg r = s.readReg r := by
  simp [State.readReg, h1, h2, h3]

theorem afterReset_readReg_holding (c : Config) (contents : Nat) :
    ∀ r ∈ [0x02, 0x03, 0x04], (State.afterReset c contents).readReg r = 0 := by
  simp [State.readReg]

/-- States of one configuration have the same constants (10_state.md R38). -/
theorem readReg_param_congr {s t : State} (h : t.cfg = s.cfg) :
    ∀ r ∈ [0x08, 0x09, 0x0A, 0x0B, 0x0C, 0x0D], t.readReg r = s.readReg r := by
  simp [State.readReg, h]

/-- `MRSHAPE[k]` shows register `k` (10_state.md R40). -/
theorem readReg_mrShape (s : State) (r : MReg) :
    s.readReg (0x10 + r.toBits.toNat) = mrShape (s.matrixAt r) := by
  cases r <;> rfl

/-- The numbers from 0x10 to 0x17 are those of the eight `MRSHAPE` registers (10_state.md R32). -/
theorem exists_mreg_number {k : Nat} (hk : k < 8) : ∃ r : MReg, r.toBits.toNat = k :=
  ⟨.ofBits (BitVec.ofNat 3 k), by rw [MReg.toBits_ofBits, BitVec.toNat_ofNat]; omega⟩

theorem mrShape_none : mrShape none = 0 := rfl

theorem mrShape_rows (M : Matrix) : (mrShape (some M)).extractLsb' 16 16 = M.rows :=
  BitVec.extractLsb'_append_eq_left

theorem mrShape_cols (M : Matrix) : (mrShape (some M)).extractLsb' 0 16 = M.cols :=
  BitVec.extractLsb'_append_eq_right

/-- A legal value has a row, so its `MRSHAPE` is not 0 (10_state.md R22, R40). -/
theorem mrShape_ne_zero {ps : ParamSet} {M : Matrix} (legal : M.Legal ps) :
    mrShape (some M) ≠ 0 := by
  obtain ⟨⟨hrows, -⟩, -⟩ := legal
  intro h0
  have : M.rows = 0 := by rw [← mrShape_rows M, h0]; rfl
  simp [this] at hrows

theorem readReg_undefined (s : State) {r : Nat}
    (h : r ∈ [0x05, 0x06, 0x07, 0x0E, 0x0F] ∨ 0x18 ≤ r) : s.readReg r = 0 := by
  unfold State.readReg
  split <;> simp at h ⊢

theorem readReg_cmd0 (s : State) : s.readReg 0x01 = 0 := rfl

end ControlWindow

/-! SUPPORT. `ESTICKY` (10_state.md R35). -/

section Esticky

/-- An error completion clears no bit of `ESTICKY`. -/
theorem stickyAfter_keeps {old : BitVec 8} (e : ErrorCode) {k : Nat} (h : old.getLsbD k = true) :
    (stickyAfter old e).getLsbD k = true := by
  rw [stickyAfter_getLsbD _ _ (BitVec.lt_of_getLsbD h), h, Bool.true_or]

theorem issue_keeps_esticky {s t : State} {d : Descriptor} (h : s.issue d = .next t) {k : Nat}
    (hk : s.esticky.getLsbD k = true) : t.esticky.getLsbD k = true := by
  obtain ⟨e, rfl⟩ | ⟨i, w, -, -, rfl⟩ := issue_cases h
  · exact stickyAfter_keeps e hk
  · simpa using hk

/-- Only a reset clears a bit of `ESTICKY`. -/
theorem Served.keeps_esticky {s t : State} {a : HostAction} (h : Served s a t)
    (notReset : ∀ c, a ≠ .reset c) {k : Nat} (hk : s.esticky.getLsbD k = true) :
    t.esticky.getLsbD k = true := by
  cases h with
  | issue ends => exact issue_keeps_esticky ends hk
  | reset c => exact absurd rfl (notReset c)
  | _ => exact hk

/-- Settles O40: an error completion sets the bit of its code, a normal completion sets none, and
`Served.keeps_esticky` covers the other moves. -/
theorem estickyAccumulatesUntilReset : Obligations.EstickyAccumulatesUntilReset := by
  refine ⟨fun s t d h => ?_, fun s t h notReset k hk => ?_⟩
  · obtain ⟨e, rfl⟩ | ⟨i, w, -, -, rfl⟩ := issue_cases h
    · exact ⟨fun h0 => absurd h0 (code_ne_zero e), fun _ k hk => stickyAfter_getLsbD _ _ hk⟩
    · exact ⟨fun _ => by simp, fun h0 => absurd rfl h0⟩
  · obtain ⟨-, rfl⟩ | ⟨a, rest, hhost, served⟩ := step_cases h
    · exact hk
    · exact served.keeps_esticky (fun c hc => notReset c rest (hc ▸ hhost)) hk

end Esticky

/-! SUPPORT. The holding registers `CMD1`, `CMD2`, `CMD3` (10_state.md R37). -/

section Holding

theorem issue_readReg_holding {s t : State} {d : Descriptor} (h : s.issue d = .next t) :
    ∀ r ∈ [0x02, 0x03, 0x04], t.readReg r = s.readReg r := by
  obtain ⟨h1, h2, h3, -⟩ := issue_registersKept h
  exact readReg_holding_congr h1 h2 h3

/-- A write of a holding register sets it and leaves the other two. -/
theorem writeReg_holding (s : State) {r : Nat} (w : Word) (hr : r ∈ [0x02, 0x03, 0x04]) :
    ∃ t, s.writeReg r w = .next t ∧ t.readReg r = w ∧
      ∀ r' ∈ [0x02, 0x03, 0x04], r' ≠ r → t.readReg r' = s.readReg r' := by
  simp only [List.mem_cons, List.not_mem_nil, or_false] at hr
  obtain rfl | rfl | rfl := hr <;> exact ⟨_, rfl, rfl, by simp [State.readReg]⟩

/-- A move that is neither a reset nor a write of a holding register leaves that register alone. -/
theorem Served.readReg_holding {s t : State} {a : HostAction} (h : Served s a t) {r : Nat}
    (hr : r ∈ [0x02, 0x03, 0x04]) (notReset : ∀ c, a ≠ .reset c)
    (notWrite : ∀ w, a ≠ .writeReg r w) : t.readReg r = s.readReg r := by
  have others {q : Nat} {w : Word} (hq : q ∈ [0x02, 0x03, 0x04])
      (ha : a = .writeReg q w) (hw : s.writeReg q w = .next t) : t.readReg r = s.readReg r := by
    obtain ⟨u, hu, -, keep⟩ := writeReg_holding s w hq
    obtain rfl : u = t := by simpa [hu] using hw
    exact keep r hr fun e => notWrite w (e ▸ ha)
  cases h with
  | issue ends => exact issue_readReg_holding ends r hr
  | writeCmd1 w | writeCmd2 w | writeCmd3 w => exact others (by simp) rfl rfl
  | reset c => exact absurd rfl (notReset c)
  | _ => exact readReg_holding_congr rfl rfl rfl r hr

/-- Settles O44, move by move. -/
theorem holdingRegistersHoldTheLastValue : Obligations.HoldingRegistersHoldTheLastValue := by
  refine ⟨fun s r w rest hr hhost => ?_, afterReset_readReg_holding, fun s c rest hhost => ?_,
    fun s t d h => issue_readReg_holding h, fun s t r hr h notReset notWrite => ?_⟩
  · obtain ⟨t, ht, hw, keep⟩ := writeReg_holding (s.takeMove rest) w hr
    refine ⟨t, by rw [step_writeReg hhost, ht], hw, fun r' hr' hne => ?_⟩
    exact (keep r' hr' hne).trans (readReg_holding_congr rfl rfl rfl r' hr')
  · exact ⟨_, step_reset hhost, afterReset_readReg_holding s.cfg c⟩
  · obtain ⟨-, rfl⟩ | ⟨a, rest, hhost, served⟩ := step_cases h
    · rfl
    · rw [served.readReg_holding hr (fun c hc => notReset c rest (hc ▸ hhost))
        (fun w hw => notWrite w rest (hw ▸ hhost))]
      exact readReg_holding_congr rfl rfl rfl r hr

end Holding

/-! SUPPORT. The parameter registers (10_state.md R38). -/

section ParamRegisters

theorem paramDb_toNat (ps : ParamSet) : (paramDb ps).toNat =
    ps.D + 256 * ps.B + 65536 * (if ps.xof = .shake128 then 0 else 1) := by
  have hD := ps_D_le ps
  have hB := ps_B_le ps
  cases hx : ps.xof <;>
    · simp only [paramDb, hx, BitVec.toNat_ofNat, reduceCtorEq, if_true, if_false]
      omega

/-- Every parameter fits its field: the registers show the configuration itself (00_scope.md R6, R8). -/
theorem paramRegisters_toNat (s : State) :
    (s.readReg 0x08).toNat = s.cfg.ps.n ∧
    (s.readReg 0x09).toNat = s.cfg.ps.D + 256 * s.cfg.ps.B +
      65536 * (if s.cfg.ps.xof = .shake128 then 0 else 1) ∧
    (s.readReg 0x0A).toNat = 65536 * s.cfg.ps.m + s.cfg.ps.nCols ∧
    (s.readReg 0x0B).toNat = s.cfg.ps.l ∧
    (s.readReg 0x0C).toNat = 65536 * s.cfg.ps.lenSeedSE + s.cfg.ps.lenSeedA ∧
    (s.readReg 0x0D).toNat = s.cfg.dmemSize := by
  obtain ⟨⟨-, -, hn⟩, -, ⟨-, hm⟩, ⟨-, hc⟩, ⟨-, hl⟩, ⟨-, -, hA⟩, hSE⟩ := s.cfg.ps.legal
  have hmem := s.cfg.dmemSizeLegal.2
  refine ⟨?_, paramDb_toNat s.cfg.ps, ?_, ?_, ?_, ?_⟩ <;>
    · simp only [State.readReg, BitVec.toNat_ofNat]
      omega

/-- Settles O45: a write is ignored, and every step keeps the configuration (`step_cfg`). -/
theorem paramRegistersAreConstant : Obligations.ParamRegistersAreConstant := by
  refine ⟨paramRegisters_toNat, fun s t h => readReg_param_congr (step_cfg h),
    fun s r w rest hr hhost => step_writeReg_ignored ?_ hhost, fun s hps hsize => ?_⟩
  · simp only [List.mem_cons, List.not_mem_nil, or_false] at hr ⊢
    omega
  · obtain ⟨h8, h9, hA, hB, hC, hD⟩ := paramRegisters_toNat s
    generalize s.cfg.ps.lenSeedSE = k at hps hC
    simp only [hps, hsize, ParamSet.frodo640] at h8 h9 hA hB hC hD
    refine ⟨?_, ?_, ?_, ?_, ?_, ?_⟩ <;> apply BitVec.eq_of_toNat_eq
    · simpa using h8
    · simpa using h9
    · simpa using hA
    · simpa using hB
    · simp [BitVec.extractLsb'_toNat, hC]
    · simpa using hD

end ParamRegisters

/-! SUPPORT. `MRSHAPE`, undefined registers, and reset (10_state.md R29, R40, R41, R46). -/

section Shapes

/-- A `GEN` that completes leaves the generated matrix in its destination (43_gen_xof.md R182). -/
theorem gen_completed_matrixAt {s t : State} {md : MReg} {addr len : Word}
    (h : exec (.gen md addr len) s = .next t) (h0 : t.err = 0) :
    t.matrixAt md = some (genMatrix s.cfg.ps (s.input addr (seedBytes s.cfg.ps))) := by
  obtain ⟨e, -, rfl⟩ | ⟨w, hw, rfl⟩ := exec_cases h
  · exact absurd h0 (code_ne_zero e)
  · obtain ⟨-, -, rfl⟩ := genEffect_ok_iff.mp hw
    simp [State.writeMatrix_matrixAt]

/-- Settles O47: each clause is one of the laws of `mrShape`; a legal value has at least one row. -/
theorem mrShapeShowsShapeAndValidity : Obligations.MrShapeShowsShapeAndValidity := by
  refine ⟨fun s r M hM => ?_, fun s r hr => ?_, fun s r inv => ?_,
    fun s r w rest hhost => step_writeReg_ignored ?_ hhost, fun s t addr len hn h h0 => ?_⟩
  · rw [readReg_mrShape, hM]
    exact ⟨mrShape_rows M, mrShape_cols M⟩
  · rw [readReg_mrShape, hr, mrShape_none]
  · obtain ⟨legal, -⟩ := inv
    rw [readReg_mrShape]
    cases hM : s.matrixAt r with
    | none => simp [mrShape_none]
    | some M => simpa using mrShape_ne_zero (legal r M hM)
  · simp only [List.mem_cons, List.not_mem_nil, or_false]
    omega
  · have hread := readReg_mrShape t .m0
    rw [gen_completed_matrixAt h h0] at hread
    simpa [mrShape, genMatrix, hn, MReg.toBits] using hread

/-- Settles O48: each number is one that the tables of reads and of writes leave out. -/
theorem undefinedRegistersReadZeroAndIgnoreWrites :
    Obligations.UndefinedRegistersReadZeroAndIgnoreWrites := by
  refine ⟨fun s r rest hr hhost => ?_, fun s rest hhost => ?_,
    fun s r w rest hr hhost => step_writeReg_ignored hr hhost⟩
  · rw [step_readReg hhost, readReg_undefined s hr]
  · rw [step_readReg hhost, readReg_cmd0]

end Shapes

section Reset

/-- The number whose base-256 digits are the first `N` bytes of `f`, in the form of `Memory.init`. -/
def contentsOf (N : Nat) (f : Nat → Byte) : Nat :=
  Nat.ofDigits 256 ((List.range N).map fun a => (f a).toNat)

/-- Any `N` bytes can be what `DMEM` holds after a reset (70_reset_and_hazards.md R262). -/
theorem unlisted_contentsOf {N a : Nat} (f : Nat → Byte) (ha : a < N) :
    Memory.unlisted ⟨contentsOf N f, []⟩ a = f a := by
  have digits : ∀ d ∈ (List.range N).map fun a => (f a).toNat, d < 256 := by
    simp only [List.mem_map]
    rintro _ ⟨b, -, rfl⟩
    exact (f b).isLt
  apply BitVec.eq_of_toNat_eq
  rw [Memory.unlisted, BitVec.toNat_ofNat, Nat.shiftRight_eq_div_pow, Nat.pow_mul, contentsOf,
    show 2 ^ 8 = 256 from rfl, Nat.ofDigits_div_pow_eq_ofDigits_drop a (by omega) _ digits,
    List.drop_eq_getElem_cons (by simpa using ha), Nat.ofDigits_cons]
  have := (f a).isLt
  simp only [List.getElem_map, List.getElem_range]
  omega

/-- Settles O53: the contents are the number whose base-256 digits are the wanted bytes. -/
theorem resetLeavesTheTabledState : Obligations.ResetLeavesTheTabledState := by
  refine ⟨fun c contents => ⟨State.afterReset_matrixAt c contents, ?_,
    afterReset_readReg_holding c contents, fun k hk => ?_,
    fun s hs => readReg_param_congr hs.symm⟩, fun c f => ⟨contentsOf c.dmemSize f, fun a ha => ?_⟩⟩
  · rw [readReg_status, State.afterReset_err, State.afterReset_esticky]
    rfl
  · obtain ⟨r, rfl⟩ := exists_mreg_number hk
    rw [readReg_mrShape, State.afterReset_matrixAt, mrShape_none]
  · rw [State.afterReset_dmem, Memory.read_unlisted, unlisted_contentsOf f ha]

/-- Settles O54: the state after the reset move is made of the configuration and the coming moves. -/
theorem resetForgetsTheMatrices : Obligations.ResetForgetsTheMatrices := by
  refine ⟨fun s c rest hhost => ⟨_, step_reset hhost, State.afterReset_matrixAt s.cfg c⟩,
    fun s s' c rest hhost hs' => ?_⟩
  have hcfg : s'.cfg = s.cfg := by rw [hs']
  have hhost' : s'.host = .reset c :: rest := by rw [hs']; exact hhost
  rw [step_reset hhost, step_reset hhost', hcfg]

end Reset

end Sys2Proof.Machine

namespace Sys2Proof.Machine

/-! SUPPORT. The range check of a byte buffer as the last check of a command: once the length, shape and
dimension checks before it have passed, the command writes or ends with `AddressRange`
(20_memory.md R65, 60_exceptions.md R238). -/

section RangeCheck

/-- A command goes on past a check that answered, whatever the check is. -/
theorem bind_of_ok {α β : Type} {x : Except ErrorCode α} {a : α} (h : x = .ok a)
    (f : α → Except ErrorCode β) : (x >>= f) = f a := by
  rw [h, ok_bind]

theorem check_ok_of_true {c : Bool} (h : c = true) (e : ErrorCode) : check c e = .ok () :=
  check_ok_iff.mpr h

theorem checkDims_ok_of_bounds {s : State} {n1 n2 : BitVec 16}
    (h1 : 1 ≤ n1.toNat ∧ n1.toNat ≤ s.cfg.ps.n) (h2 : 1 ≤ n2.toNat ∧ n2.toNat ≤ s.cfg.ps.n) :
    s.checkDims n1 n2 = .ok () :=
  checkDims_ok_iff.mpr ⟨h1, h2⟩

theorem checkRange_error_iff {s : State} {addr len : Word} {e : ErrorCode} :
    s.checkRange addr len = .error e ↔
      s.cfg.dmemSize < addr.toNat + len.toNat ∧ .addressRange = e := by
  simp [State.checkRange, check_error_iff]

/-- Of the checks of command `i`, only the range check of its buffer is still to be made; after it comes
the write. -/
def OnlyRangeCheckLeft (i : Instr) (s : State) (addr len : Word) : Prop :=
  ∃ w, effectOf i s = (s.checkRange addr len >>= fun _ => .ok w)

variable {s : State} {addr len : Word}

/-- The two ends of such a command: the range check alone decides between them. -/
theorem OnlyRangeCheckLeft.exec_ends {i : Instr} (h : OnlyRangeCheckLeft i s addr len) :
    ∃ t, exec i s = .next t ∧
      (addr.toNat + len.toNat ≤ s.cfg.dmemSize → t.err = 0) ∧
      (s.cfg.dmemSize < addr.toNat + len.toNat → ErrorCompletion .addressRange s t) := by
  obtain ⟨w, hw⟩ := h
  rw [exec_eq_finish, hw]
  by_cases fits : addr.toNat + len.toNat ≤ s.cfg.dmemSize
  · rw [bind_of_ok (checkRange_ok_iff (u := ()).mpr fits)]
    exact ⟨(s.apply w).complete, rfl, fun _ => rfl, fun outside => by omega⟩
  · rw [checkRange_error_iff.mpr ⟨by omega, rfl⟩, error_bind]
    obtain ⟨t, ht, raised⟩ := finish_error (s := s) (r := .error .addressRange) rfl
    exact ⟨t, ht, fun inside => absurd inside fits, fun _ => raised⟩

theorem enc_onlyRangeCheckLeft (md : MReg) (hlen : len.toNat = plainBytes s.cfg.ps) :
    OnlyRangeCheckLeft (.enc md addr len) s addr len :=
  ⟨_, bind_of_ok (check_ok_of_true (decide_eq_true hlen) _) _⟩

theorem gen_onlyRangeCheckLeft (md : MReg) (hlen : len.toNat = seedBytes s.cfg.ps) :
    OnlyRangeCheckLeft (.gen md addr len) s addr len :=
  ⟨_, bind_of_ok (check_ok_of_true (decide_eq_true hlen) _) _⟩

theorem dec_onlyRangeCheckLeft {ma : MReg} {M : Matrix} (hM : s.matrixAt ma = some M)
    (hr : M.rows.toNat = s.cfg.ps.m) (hc : M.cols.toNat = s.cfg.ps.nCols)
    (hlen : len.toNat = plainBytes s.cfg.ps) :
    OnlyRangeCheckLeft (.dec addr len ma) s addr len :=
  ⟨_, (bind_of_ok (source_of_some hM) _).trans <|
    (bind_of_ok (check_ok_of_true (by simp [hr, hc]) _) _).trans <|
    bind_of_ok (check_ok_of_true (decide_eq_true hlen) _) _⟩

theorem pack_onlyRangeCheckLeft {ma : MReg} {M : Matrix} (hM : s.matrixAt ma = some M)
    (hlen : packedBytes s.cfg.ps M.rows.toNat M.cols.toNat ≤ len.toNat) :
    OnlyRangeCheckLeft (.pack addr len ma) s addr len :=
  ⟨_, (bind_of_ok (source_of_some hM) _).trans <|
    bind_of_ok (check_ok_of_true (decide_eq_true hlen) _) _⟩

section Dimensions

variable (md : MReg) {n1 n2 : BitVec 16} (h1 : 1 ≤ n1.toNat ∧ n1.toNat ≤ s.cfg.ps.n)
  (h2 : 1 ≤ n2.toNat ∧ n2.toNat ≤ s.cfg.ps.n)
include h1 h2

theorem unpack_onlyRangeCheckLeft
    (hlen : packedBytes s.cfg.ps n1.toNat n2.toNat ≤ len.toNat) :
    OnlyRangeCheckLeft (.unpack md addr len n1 n2) s addr len :=
  ⟨_, (bind_of_ok (checkDims_ok_of_bounds h1 h2) _).trans <|
    bind_of_ok (check_ok_of_true (decide_eq_true hlen) _) _⟩

theorem samp_onlyRangeCheckLeft (hlen : len.toNat = sampleBytes n1.toNat n2.toNat) :
    OnlyRangeCheckLeft (.samp md addr len n1 n2) s addr len :=
  ⟨_, (bind_of_ok (checkDims_ok_of_bounds h1 h2) _).trans <|
    bind_of_ok (check_ok_of_true (decide_eq_true hlen) _) _⟩

end Dimensions

end RangeCheck

/-- Settles O38, command by command: in each, the checks before the range check have passed. -/
theorem bufferOutsideMemoryEndsWithAddressRange :
    Obligations.BufferOutsideMemoryEndsWithAddressRange := by
  intro s mr addr len n1 n2 M i h
  suffices OnlyRangeCheckLeft i s addr len from this.exec_ends
  obtain ⟨rfl, hlen⟩ | ⟨rfl, hM, hr, hc, hlen⟩ | ⟨rfl, hM, hlen⟩ | ⟨rfl, h1, h2, hlen⟩ |
    ⟨rfl, hlen⟩ | ⟨rfl, h1, h2, hlen⟩ := h
  · exact enc_onlyRangeCheckLeft mr hlen
  · exact dec_onlyRangeCheckLeft hM hr hc hlen
  · exact pack_onlyRangeCheckLeft hM hlen
  · exact unpack_onlyRangeCheckLeft mr h1 h2 hlen
  · exact gen_onlyRangeCheckLeft mr hlen
  · exact samp_onlyRangeCheckLeft mr h1 h2 hlen

end Sys2Proof.Machine

namespace Sys2Proof

/-! SUPPORT. When the decoder accepts a descriptor (30_encoding.md R90, R92, R95, R97). -/

section Decoder

/-- The opcode byte is the top byte of `W0` (R90). -/
theorem Descriptor.opcode_toNat (d : Descriptor) :
    d.fields.opcode.toNat = d.w0.toNat / 2 ^ 24 := by
  have := d.w0.isLt
  simp only [Descriptor.fields, BitVec.extractLsb'_toNat, Nat.shiftRight_eq_div_pow]
  omega

/-- A byte outside the opcode map names no command (R97). -/
theorem Opcode.ofByte_eq_none {b : BitVec 8}
    (h : b.toNat ∉ [0x01, 0x02, 0x03, 0x04, 0x10, 0x11, 0x12, 0x13, 0x20, 0x21, 0x30]) :
    Opcode.ofByte b = none := by
  unfold Opcode.ofByte
  split <;> simp_all

theorem decode_undefinedOpcode {d : Descriptor} (h : Opcode.ofByte d.fields.opcode = none) :
    decode d = .rejected .undefinedOpcode := by
  simp [decode, Fields.decode, h]

/-- The decoder accepts only an opcode of the map with the reserved and all unused fields zero
(R95, R97). -/
theorem decode_ok_fields {d : Descriptor} {i : Instr} (h : decode d = .ok i) :
    ∃ o, Opcode.ofByte d.fields.opcode = some o ∧ d.fields.rsv = 0 ∧
      d.fields.unusedZero o.used = true := by
  unfold decode Fields.decode at h
  split at h
  next => cases h
  next o ho =>
    split_ifs at h with hrsv hunused
    exact ⟨o, ho, not_not.mp hrsv, hunused⟩

end Decoder

end Sys2Proof

namespace Sys2Proof.Machine

/-! SUPPORT. The rows of the opcode table (30_encoding.md R95, R96): the bits that each command fixes are
its opcode, the reserved field, and the fields it does not use. -/

section Rows

/-- The mask of an operand field: all of it is fixed unless the command uses it. -/
def fieldMask (w : Nat) (used : Bool) : BitVec w := if used then 0 else .allOnes w

/-- The bits of a descriptor that a row of the table of R95 fixes, field by field. -/
def fixedFields (u : Used) : Fields where
  opcode := .allOnes 8
  md := fieldMask 3 u.md
  ma := fieldMask 3 u.ma
  mb := fieldMask 3 u.mb
  me := fieldMask 3 u.me
  rsv := .allOnes 12
  addr := fieldMask 32 u.addr
  len := fieldMask 32 u.len
  n1 := fieldMask 16 u.n1
  n2 := fieldMask 16 u.n2

/-- The row of the opcode table that R90, R95 and R96 give a command. -/
def rowOf (o : Opcode) : OpcodeRow where
  opcode := o.byte.toNat
  match0 := o.blank.descriptor.w0
  mask0 := (fixedFields o.used).descriptor.w0
  mask1 := (fixedFields o.used).descriptor.w1
  mask2 := (fixedFields o.used).descriptor.w2
  mask3 := (fixedFields o.used).descriptor.w3

/-- The rows of the opcode table are those of the eleven commands. -/
theorem opcodeRows_eq_map_rowOf : opcodeRows =
    [.mul, .mac, .add, .sub, .enc, .dec, .pack, .unpack, .gen, .samp, .clr].map rowOf := rfl

/-- A field agrees with its mask when it is in use or zero. -/
theorem and_fieldMask_eq_zero_iff {w : Nat} (x : BitVec w) (used : Bool) :
    x &&& fieldMask w used = 0 ↔ (used || x == 0) = true := by
  cases used <;> simp [fieldMask]

/-- The bits of `f` that are set in the mask `m`, field by field. -/
def maskFields (f m : Fields) : Fields where
  opcode := f.opcode &&& m.opcode
  md := f.md &&& m.md
  ma := f.ma &&& m.ma
  mb := f.mb &&& m.mb
  me := f.me &&& m.me
  rsv := f.rsv &&& m.rsv
  addr := f.addr &&& m.addr
  len := f.len &&& m.len
  n1 := f.n1 &&& m.n1
  n2 := f.n2 &&& m.n2

/-- Masking the words of a descriptor masks its fields. -/
theorem fields_of_masked_words (d m : Descriptor) :
    Descriptor.fields ⟨d.w0 &&& m.w0, d.w1 &&& m.w1, d.w2 &&& m.w2, d.w3 &&& m.w3⟩ =
      maskFields d.fields m.fields := by
  simp [Descriptor.fields, maskFields, BitVec.extractLsb'_and]

/-- The fixed fields of a command's row agree when the descriptor has the command's opcode and zeros in
the reserved and all unused fields (R95). -/
theorem maskFields_eq_blank_iff (f : Fields) (o : Opcode) :
    maskFields f (fixedFields o.used) = o.blank ↔
      f.opcode = o.byte ∧ f.rsv = 0 ∧ f.unusedZero o.used = true := by
  simp only [maskFields, fixedFields, Opcode.blank, Fields.mk.injEq, and_fieldMask_eq_zero_iff,
    BitVec.and_allOnes, Fields.unusedZero, Bool.and_eq_true, and_assoc]
  constructor
  · rintro ⟨hop, hmd, hma, hmb, hme, hrsv, hrest⟩
    exact ⟨hop, hrsv, hmd, hma, hmb, hme, hrest⟩
  · rintro ⟨hop, hrsv, hmd, hma, hmb, hme, hrest⟩
    exact ⟨hop, hmd, hma, hmb, hme, hrsv, hrest⟩

/-- A descriptor fits a command's row when its opcode is the command's and its reserved and all its
unused fields are zero (R95). -/
theorem rowOf_fits_iff (o : Opcode) (d : Descriptor) : (rowOf o).Fits d ↔
    d.fields.opcode = o.byte ∧ d.fields.rsv = 0 ∧ d.fields.unusedZero o.used = true := by
  rw [← maskFields_eq_blank_iff, ← Fields.fields_descriptor (fixedFields o.used),
    ← fields_of_masked_words, ← Fields.fields_descriptor o.blank,
    (Function.LeftInverse.injective Descriptor.descriptor_fields).eq_iff]
  simp [OpcodeRow.Fits, rowOf, Fields.descriptor, Opcode.blank]

/-- The opcode byte of an accepted descriptor picks the row it fits. -/
theorem row_fits_of_decode_ok {d : Descriptor} {i : Instr} {row : OpcodeRow}
    (hrow : row ∈ opcodeRows) (hopcode : d.w0.toNat / 2 ^ 24 = row.opcode) (h : decode d = .ok i) :
    row.Fits d := by
  obtain ⟨o, ho, hrsv, hunused⟩ := decode_ok_fields h
  rw [opcodeRows_eq_map_rowOf, List.mem_map] at hrow
  obtain ⟨o', -, rfl⟩ := hrow
  have hbyte : d.fields.opcode = o'.byte :=
    BitVec.eq_of_toNat_eq (d.opcode_toNat.trans hopcode)
  obtain rfl : o' = o := by simpa [hbyte] using ho
  exact (rowOf_fits_iff o' d).mpr ⟨hbyte, hrsv, hunused⟩

end Rows

/-! SUPPORT. The error completion of a descriptor the decoder does not accept (60_exceptions.md R234). -/

/-- A step that issues a rejected descriptor changes only `STATUS`, which records `IllegalCommand`. -/
theorem step_of_decode_rejected {s : State} {w : Word} {rest : List HostAction} {e : DecodeError}
    (hhost : s.host = .writeReg 0x01 w :: rest)
    (h : decode ⟨w, s.cmd1, s.cmd2, s.cmd3⟩ = .rejected e) :
    ∃ t, step s = .next t ∧ ErrorCompletion .illegalCommand (s.takeMove rest) t :=
  ⟨_, (step_writeReg hhost).trans (issue_of_decode_rejected h), raise_errorCompletion _ _⟩

/-- Settles O6: the decoder rejects the opcode before it looks at any other field. -/
theorem undefinedOpcodeIsIllegal : Obligations.UndefinedOpcodeIsIllegal := by
  intro s w rest hhost hopcode
  refine step_of_decode_rejected hhost (decode_undefinedOpcode (Opcode.ofByte_eq_none ?_))
  rwa [Descriptor.opcode_toNat]

/-- Settles O7: an accepted descriptor would fit its row, so this one is rejected. -/
theorem nonzeroUnusedFieldIsIllegal : Obligations.NonzeroUnusedFieldIsIllegal := by
  intro s w rest row hhost hrow hopcode hfits
  cases hd : decode ⟨w, s.cmd1, s.cmd2, s.cmd3⟩ with
  | ok i => exact absurd (row_fits_of_decode_ok hrow hopcode hd) hfits
  | rejected e => exact step_of_decode_rejected hhost hd

/-! SUPPORT. The two commands that take the shape of their result from `n1` and `n2`
(30_encoding.md R98, 42_pack_unpack.md R164, 44_sample.md R213). -/

section ShapeFromDimensions

theorem bind_error_iff {α β : Type} {x : Except ErrorCode α} {f : α → Except ErrorCode β}
    {e : ErrorCode} :
    (x >>= f) = .error e ↔ x = .error e ∨ ∃ a, x = .ok a ∧ f a = .error e := by
  cases x <;> simp

theorem checkDims_error_iff {s : State} {n1 n2 : BitVec 16} {e : ErrorCode} :
    s.checkDims n1 n2 = .error e ↔
      ¬ ((1 ≤ n1.toNat ∧ n1.toNat ≤ s.cfg.ps.n) ∧ (1 ≤ n2.toNat ∧ n2.toNat ≤ s.cfg.ps.n)) ∧
      .illegalCommand = e := by
  rw [State.checkDims, check_error_iff, ← Bool.not_eq_true]
  simp [dimensionOk]

/-- Command `i` checks the dimensions first, then its buffer, and writes an `n1` by `n2` matrix to
`md`. -/
def ShapeFromDimensions (i : Instr) (s : State) (md : MReg) (n1 n2 : BitVec 16) : Prop :=
  ∃ (lengthOk : Bool) (addr len : Word) (P : Matrix), P.rows = n1 ∧ P.cols = n2 ∧
    effectOf i s = (do
      s.checkDims n1 n2
      check lengthOk .invalidBufferLength
      s.checkRange addr len
      return .matrix md P)

variable {s : State} {md : MReg} {n1 n2 : BitVec 16}

theorem unpack_shapeFromDimensions (addr len : Word) :
    ShapeFromDimensions (.unpack md addr len n1 n2) s md n1 n2 :=
  ⟨_, addr, len, _, BitVec.eq_of_toNat_eq (tabulate_rows _ (toNat16_le n1)),
    BitVec.eq_of_toNat_eq (tabulate_cols _ (toNat16_le n2)), rfl⟩

theorem samp_shapeFromDimensions (addr len : Word) :
    ShapeFromDimensions (.samp md addr len n1 n2) s md n1 n2 :=
  ⟨_, addr, len, _, BitVec.eq_of_toNat_eq (tabulate_rows _ (toNat16_le n1)),
    BitVec.eq_of_toNat_eq (tabulate_cols _ (toNat16_le n2)), rfl⟩

/-- Dimensions outside the limits end such a command with `IllegalCommand`. -/
theorem ShapeFromDimensions.exec_outside {i : Instr} (h : ShapeFromDimensions i s md n1 n2)
    (outside : ¬ ((1 ≤ n1.toNat ∧ n1.toNat ≤ s.cfg.ps.n) ∧
      (1 ≤ n2.toNat ∧ n2.toNat ≤ s.cfg.ps.n))) :
    ∃ t, exec i s = .next t ∧ ErrorCompletion .illegalCommand s t := by
  obtain ⟨_, _, _, _, -, -, heffect⟩ := h
  rw [exec_eq_finish]
  refine finish_error ?_
  rw [heffect, checkDims_error_iff.mpr ⟨outside, rfl⟩, error_bind]

/-- Dimensions inside the limits leave only the errors of the buffer, and the shape of the result is the
dimensions. -/
theorem ShapeFromDimensions.exec_inside {i : Instr} (h : ShapeFromDimensions i s md n1 n2)
    (inside : (1 ≤ n1.toNat ∧ n1.toNat ≤ s.cfg.ps.n) ∧
      (1 ≤ n2.toNat ∧ n2.toNat ≤ s.cfg.ps.n)) :
    ∃ t, exec i s = .next t ∧ t.err ≠ 5 ∧
      (t.err = 0 → ∃ P, t.matrixAt md = some P ∧ P.rows = n1 ∧ P.cols = n2) := by
  obtain ⟨lengthOk, addr, len, P, hrows, hcols, heffect⟩ := h
  rw [bind_of_ok (checkDims_ok_iff (u := ()).mpr inside)] at heffect
  obtain ⟨t, ht⟩ := finish_next s (effectOf i s)
  refine ⟨t, (exec_eq_finish i s).trans ht, ?_⟩
  obtain ⟨e, he, rfl⟩ | ⟨w, hw, rfl⟩ := finish_cases ht
  · refine ⟨?_, fun h0 => absurd h0 (code_ne_zero e)⟩
    rw [heffect, bind_error_iff, check_error_iff] at he
    obtain ⟨-, rfl⟩ | ⟨-, -, he⟩ := he
    · simp [ErrorCode.code]
    · obtain he | ⟨-, -, he⟩ := bind_error_iff.mp he
      · obtain ⟨-, rfl⟩ := checkRange_error_iff.mp he
        simp [ErrorCode.code]
      · cases he
  · refine ⟨by simp, fun _ => ⟨P, ?_, hrows, hcols⟩⟩
    obtain ⟨-, -, hw⟩ := bind_ok_iff.mp (heffect ▸ hw)
    obtain ⟨-, -, hw⟩ := bind_ok_iff.mp hw
    cases hw
    simp [State.writeMatrix_matrixAt]

end ShapeFromDimensions

/-- Settles O8: the dimensions are the first check of both commands, and no later check raises
`IllegalCommand`. -/
theorem dimensionsOutsideTheLimitsAreIllegal :
    Obligations.DimensionsOutsideTheLimitsAreIllegal := by
  intro s md addr len n1 n2
  have unpack := unpack_shapeFromDimensions (s := s) (md := md) (n1 := n1) (n2 := n2) addr len
  have samp := samp_shapeFromDimensions (s := s) (md := md) (n1 := n1) (n2 := n2) addr len
  exact ⟨fun outside => ⟨unpack.exec_outside outside, samp.exec_outside outside⟩,
    fun inside => ⟨unpack.exec_inside inside, samp.exec_inside inside⟩⟩

end Sys2Proof.Machine

namespace Sys2Proof.Machine

/-! SUPPORT. The shape rule of the arithmetic commands: with every source valid, the check of the shapes
is the one check left (40_matrix_arithmetic.md R126). -/

section ShapeRule

/-- With its sources read, command `i` checks that their shapes fit, and then writes an `r` by `c` matrix
to `md`. -/
def OnlyShapeCheckLeft (i : Instr) (s : State) (md : MReg) (fits : Prop) (r c : BitVec 16) : Prop :=
  ∃ (ok : Bool) (P : Matrix), (ok = true ↔ fits) ∧ P.rows = r ∧ P.cols = c ∧
    effectOf i s = (check ok .dimensionMismatch >>= fun _ => .ok (.matrix md P))

variable {s : State} {md : MReg}

/-- Shapes that fit complete such a command, and its result has the shape the rule gives. -/
theorem OnlyShapeCheckLeft.exec_fits {i : Instr} {fits : Prop} {r c : BitVec 16}
    (h : OnlyShapeCheckLeft i s md fits r c) (hfits : fits) :
    ∃ t P, exec i s = .next t ∧ t.err = 0 ∧ t.matrixAt md = some P ∧ P.rows = r ∧ P.cols = c := by
  obtain ⟨ok, P, hok, hrows, hcols, heffect⟩ := h
  rw [bind_of_ok (check_ok_of_true (hok.mpr hfits) _)] at heffect
  obtain ⟨t, ht, hmd, ⟨herr, -⟩, -⟩ := finish_matrix heffect
  exact ⟨t, P, (exec_eq_finish i s).trans ht, herr, hmd, hrows, hcols⟩

/-- Any other shapes end such a command with `DimensionMismatch`. -/
theorem OnlyShapeCheckLeft.exec_mismatch {i : Instr} {fits : Prop} {r c : BitVec 16}
    (h : OnlyShapeCheckLeft i s md fits r c) (hfits : ¬ fits) :
    ∃ t, exec i s = .next t ∧ ErrorCompletion .dimensionMismatch s t := by
  obtain ⟨ok, P, hok, -, -, heffect⟩ := h
  rw [check_error_iff.mpr ⟨Bool.eq_false_iff.mpr (mt hok.mp hfits), rfl⟩, error_bind] at heffect
  exact exec_eq_finish i s ▸ finish_error heffect

/-- A matrix tabulated over the rows of a shape has those rows (10_state.md R20). -/
theorem tabulate_rows_eq (r : BitVec 16) (c : Nat) (f : Nat → Nat → Cell16) :
    (Matrix.tabulate r.toNat c f).rows = r :=
  BitVec.eq_of_toNat_eq (tabulate_rows f (toNat16_le r))

theorem tabulate_cols_eq (r : Nat) (c : BitVec 16) (f : Nat → Nat → Cell16) :
    (Matrix.tabulate r c.toNat f).cols = c :=
  BitVec.eq_of_toNat_eq (tabulate_cols f (toNat16_le c))

variable {ma mb : MReg} {A B : Matrix} (hA : s.matrixAt ma = some A) (hB : s.matrixAt mb = some B)
include hA hB

theorem mul_onlyShapeCheckLeft :
    OnlyShapeCheckLeft (.mul md ma mb) s md (A.cols = B.rows) A.rows B.cols :=
  ⟨_, matMul s.cfg.ps.D A B, decide_eq_true_iff, tabulate_rows_eq _ _ _, tabulate_cols_eq _ _ _,
    (bind_of_ok (source_of_some hA) _).trans <| bind_of_ok (source_of_some hB) _⟩

theorem mac_onlyShapeCheckLeft {me : MReg} {E : Matrix} (hE : s.matrixAt me = some E) :
    OnlyShapeCheckLeft (.mac md ma mb me) s md
      (A.cols = B.rows ∧ E.rows = A.rows ∧ E.cols = B.cols) A.rows B.cols :=
  ⟨_, matMulAdd s.cfg.ps.D A B E, by simp [and_assoc], tabulate_rows_eq _ _ _,
    tabulate_cols_eq _ _ _, (bind_of_ok (source_of_some hA) _).trans <|
      (bind_of_ok (source_of_some hB) _).trans <| bind_of_ok (source_of_some hE) _⟩

theorem add_onlyShapeCheckLeft :
    OnlyShapeCheckLeft (.add md ma mb) s md (A.rows = B.rows ∧ A.cols = B.cols) A.rows A.cols :=
  ⟨_, matAdd s.cfg.ps.D A B, by simp, tabulate_rows_eq _ _ _, tabulate_cols_eq _ _ _,
    (bind_of_ok (source_of_some hA) _).trans <| bind_of_ok (source_of_some hB) _⟩

theorem sub_onlyShapeCheckLeft :
    OnlyShapeCheckLeft (.sub md ma mb) s md (A.rows = B.rows ∧ A.cols = B.cols) A.rows A.cols :=
  ⟨_, matSub s.cfg.ps.D A B, by simp, tabulate_rows_eq _ _ _, tabulate_cols_eq _ _ _,
    (bind_of_ok (source_of_some hA) _).trans <| bind_of_ok (source_of_some hB) _⟩

end ShapeRule

/-- Settles O14: in each command the sources are valid, so the check of the shapes alone decides how it
ends. -/
theorem arithmeticShapeRule : Obligations.ArithmeticShapeRule := by
  intro s md ma mb me A B E hA hB
  have mul := mul_onlyShapeCheckLeft (md := md) hA hB
  have add := add_onlyShapeCheckLeft (md := md) hA hB
  have sub := sub_onlyShapeCheckLeft (md := md) hA hB
  refine ⟨⟨mul.exec_fits, mul.exec_mismatch⟩, fun hE => ?_,
    fun fits => ⟨add.exec_fits fits, sub.exec_fits fits⟩,
    fun mismatch => ⟨add.exec_mismatch mismatch, sub.exec_mismatch mismatch⟩⟩
  have mac := mac_onlyShapeCheckLeft (md := md) hA hB hE
  exact ⟨mac.exec_fits, mac.exec_mismatch⟩

/-! SUPPORT. What the four arithmetic commands have in common: the one write of each is `md` with reduced
entries, and it depends on the sources and `D` alone (40_matrix_arithmetic.md R127, R128). -/

section ArithmeticWrites

/-- Every entry of a matrix tabulated from reduced numbers is in `[0, 2^D)` (R120). -/
theorem tabulate_reduce_entries_lt {D : Nat} (hD : D ≤ 16) {r c : Nat} (g : Nat → Nat → Int) :
    ∀ e ∈ (Matrix.tabulate r c fun i j => reduce D (g i j)).entries, e.toNat < 2 ^ D := by
  simp only [Matrix.tabulate, List.mem_map]
  rintro e ⟨k, -, rfl⟩
  exact reduce_lt hD _

theorem source_congr {s s' : State} {r : MReg} (h : s.matrixAt r = s'.matrixAt r) :
    s.source r = s'.source r := by
  simp only [State.source, h]

variable {s s' t : State} {md ma mb me : MReg} {i : Instr}

/-- A command whose first failing check is `e` can only end with the error completion of `e`. -/
theorem exec_errorCompletion {e : ErrorCode} (heffect : effectOf i s = .error e)
    (h : exec i s = .next t) : ErrorCompletion e s t := by
  obtain ⟨t', ht', raised⟩ := finish_error heffect
  rw [exec_eq_finish, ht'] at h
  cases h
  exact raised

/-- A command whose one write is `d` can only end with `d` written and nothing else. -/
theorem exec_matrixCompletion {d : MReg} {P : Matrix} (heffect : effectOf i s = .ok (.matrix d P))
    (h : exec i s = .next t) : MatrixCompletion d P s t := by
  obtain ⟨t', ht', completed⟩ := finish_matrix heffect
  rw [exec_eq_finish, ht'] at h
  cases h
  exact completed

variable (hi : i ∈ [Instr.mul md ma mb, .mac md ma mb me, .add md ma mb, .sub md ma mb])
include hi

/-- The one write of an arithmetic command is `md`, with every entry in `[0, 2^D)`, whatever the sources
hold. -/
theorem arithmetic_writes_reduced {w : Effect} (h : effectOf i s = .ok w) :
    ∃ P, w = .matrix md P ∧ ∀ e ∈ P.entries, e.toNat < 2 ^ s.cfg.ps.D := by
  have hD := ps_D_le s.cfg.ps
  simp only [List.mem_cons, List.not_mem_nil, or_false] at hi
  obtain rfl | rfl | rfl | rfl := hi
  · obtain ⟨A, B, -, -, -, rfl⟩ := mulEffect_ok_iff.mp h
    exact ⟨_, rfl, tabulate_reduce_entries_lt hD _⟩
  · obtain ⟨A, B, E, -, -, -, -, rfl⟩ := macEffect_ok_iff.mp h
    exact ⟨_, rfl, tabulate_reduce_entries_lt hD _⟩
  · obtain ⟨A, B, -, -, -, rfl⟩ := addEffect_ok_iff.mp h
    exact ⟨_, rfl, tabulate_reduce_entries_lt hD _⟩
  · obtain ⟨A, B, -, -, -, rfl⟩ := subEffect_ok_iff.mp h
    exact ⟨_, rfl, tabulate_reduce_entries_lt hD _⟩

/-- An arithmetic command has the same checks and the same write on states that agree on its sources and
on `D`. -/
theorem arithmetic_effect_congr (hD : s.cfg.ps.D = s'.cfg.ps.D)
    (hsources : ∀ r ∈ sources i, s.matrixAt r = s'.matrixAt r) : effectOf i s = effectOf i s' := by
  have hread : ∀ r ∈ sources i, s.source r = s'.source r :=
    fun r hr => source_congr (hsources r hr)
  simp only [List.mem_cons, List.not_mem_nil, or_false] at hi
  obtain rfl | rfl | rfl | rfl := hi <;>
    simp only [sources, List.forall_mem_cons] at hread
  · obtain ⟨ha, hb, -⟩ := hread
    simp only [effectOf, mulEffect, ha, hb, hD]
  · obtain ⟨ha, hb, he, -⟩ := hread
    simp only [effectOf, macEffect, ha, hb, he, hD]
  · obtain ⟨ha, hb, -⟩ := hread
    simp only [effectOf, addEffect, ha, hb, hD]
  · obtain ⟨ha, hb, -⟩ := hread
    simp only [effectOf, subEffect, ha, hb, hD]

end ArithmeticWrites

/-- Settles O15: a completed command made its one write, and that is a matrix of reduced entries. -/
theorem arithmeticEntriesAreReduced : Obligations.ArithmeticEntriesAreReduced := by
  intro s t md ma mb me i hi h h0
  cases heffect : effectOf i s with
  | error e =>
    obtain ⟨⟨herr, -⟩, -⟩ := exec_errorCompletion heffect h
    exact absurd (herr.symm.trans h0) (code_ne_zero e)
  | ok w =>
    obtain ⟨P, rfl, reduced⟩ := arithmetic_writes_reduced hi heffect
    obtain ⟨hmd, -⟩ := exec_matrixCompletion heffect h
    exact ⟨P, hmd, reduced⟩

/-- Settles O16: the two runs have the same checks and the same write, so they end alike; either end
leaves everything but `md` and `STATUS`. -/
theorem arithmeticIsPure : Obligations.ArithmeticIsPure := by
  intro s s' t t' md ma mb me i hi hD hsources h h'
  have heffects := arithmetic_effect_congr hi hD hsources
  cases heffect : effectOf i s with
  | error e =>
    obtain ⟨⟨herr, -⟩, matrices, memory, registers⟩ := exec_errorCompletion heffect h
    obtain ⟨⟨herr', -⟩, -⟩ := exec_errorCompletion (heffects ▸ heffect) h'
    exact ⟨memory, fun r _ => matrices r, registers, herr.trans herr'.symm,
      fun h0 => absurd (herr.symm.trans h0) (code_ne_zero e)⟩
  | ok w =>
    obtain ⟨P, rfl, -⟩ := arithmetic_writes_reduced hi heffect
    obtain ⟨hmd, ⟨herr, -⟩, matrices, memory, registers⟩ := exec_matrixCompletion heffect h
    obtain ⟨hmd', ⟨herr', -⟩, -⟩ := exec_matrixCompletion (heffects ▸ heffect) h'
    exact ⟨memory, matrices, registers, herr.trans herr'.symm, fun _ => hmd.trans hmd'.symm⟩

end Sys2Proof.Machine

namespace Sys2Proof.Machine

/-! SUPPORT. The rounding function of `DEC` (41_encode_decode.md R143). One step of the encoding is
`2^(D-B)`: whole steps pass through the rounding, and what is left is rounded on its own. -/

section Rounding
variable (ps : ParamSet)

/-- The ring has `2^B` steps of the encoding. -/
theorem two_pow_D_eq_step_mul : 2 ^ ps.D = 2 ^ (ps.D - ps.B) * 2 ^ ps.B := by
  rw [← Nat.pow_add, Nat.sub_add_cancel (ps_B_le ps)]

variable {ps} in
/-- Half a step is a whole number when `B < D`. -/
theorem step_eq_two_mul_half (hlt : ps.B < ps.D) :
    2 ^ (ps.D - ps.B) = 2 * 2 ^ (ps.D - ps.B - 1) := by
  rw [← Nat.pow_succ', Nat.succ_eq_add_one, Nat.sub_add_cancel (by omega)]

/-- Whole steps of the encoding pass through the rounding. -/
theorem decodeEntry_mul_step_add (v e : Nat) :
    decodeEntry ps (v * 2 ^ (ps.D - ps.B) + e) = (v + decodeEntry ps e) % 2 ^ ps.B := by
  have scaled : (v * 2 ^ (ps.D - ps.B) + e) * 2 ^ ps.B + 2 ^ (ps.D - 1) =
      e * 2 ^ ps.B + 2 ^ (ps.D - 1) + v * 2 ^ ps.D := by
    rw [two_pow_D_eq_step_mul]; ring
  rw [decodeEntry, scaled, Nat.add_mul_div_right _ _ (Nat.two_pow_pos _), Nat.add_comm _ v,
    decodeEntry, Nat.add_mod_mod]

/-- The rounding does not see multiples of `2^D`. -/
theorem decodeEntry_mod (x : Nat) : decodeEntry ps (x % 2 ^ ps.D) = decodeEntry ps x := by
  have steps : x = x / 2 ^ ps.D * 2 ^ ps.B * 2 ^ (ps.D - ps.B) + x % 2 ^ ps.D := by
    rw [Nat.mul_assoc, Nat.mul_comm (2 ^ ps.B), ← two_pow_D_eq_step_mul, Nat.div_add_mod']
  conv_rhs => rw [steps, decodeEntry_mul_step_add, Nat.mul_add_mod_self_right,
    Nat.mod_eq_of_lt (decodeEntry_lt ps _)]

variable {ps} {e : Nat}

/-- For `B = D` there is nothing to round. -/
theorem decodeEntry_of_B_eq_D (heq : ps.B = ps.D) (he : e < 2 ^ ps.D) : decodeEntry ps e = e := by
  have half_lt : 2 ^ (ps.D - 1) < 2 ^ ps.D :=
    Nat.pow_lt_pow_right (by omega) (Nat.sub_one_lt (by have := ps_D_pos ps; omega))
  rw [decodeEntry, heq, Nat.add_comm, Nat.add_mul_div_right _ _ (Nat.two_pow_pos _),
    Nat.div_eq_of_lt half_lt, Nat.zero_add, Nat.mod_eq_of_lt he]

section Steps
variable (hlt : ps.B < ps.D)
include hlt

/-- For `B < D`: add half a step and count the steps. -/
theorem decodeEntry_of_B_lt_D (e : Nat) :
    decodeEntry ps e = (e + 2 ^ (ps.D - ps.B - 1)) / 2 ^ (ps.D - ps.B) % 2 ^ ps.B := by
  have half : 2 ^ (ps.D - 1) = 2 ^ (ps.D - ps.B - 1) * 2 ^ ps.B := by
    rw [← Nat.pow_add]; congr 1; omega
  rw [decodeEntry, half, two_pow_D_eq_step_mul, ← Nat.add_mul,
    Nat.mul_div_mul_right _ _ (Nat.two_pow_pos _)]

/-- A tie rounds up. -/
theorem decodeEntry_tie (tie : e % 2 ^ (ps.D - ps.B) = 2 ^ (ps.D - ps.B - 1)) :
    decodeEntry ps e = (e / 2 ^ (ps.D - ps.B) + 1) % 2 ^ ps.B := by
  have next_step : e + 2 ^ (ps.D - ps.B - 1) = (e / 2 ^ (ps.D - ps.B) + 1) * 2 ^ (ps.D - ps.B) := by
    have := Nat.div_add_mod' e (2 ^ (ps.D - ps.B))
    have := step_eq_two_mul_half hlt
    rw [Nat.add_mul]
    omega
  rw [decodeEntry_of_B_lt_D hlt, next_step, Nat.mul_div_cancel _ (Nat.two_pow_pos _)]

/-- Less than half a step above 0 rounds down to 0. -/
theorem decodeEntry_of_lt_half (low : e < 2 ^ (ps.D - ps.B - 1)) : decodeEntry ps e = 0 := by
  have := step_eq_two_mul_half hlt
  rw [decodeEntry_of_B_lt_D hlt, Nat.div_eq_of_lt (by omega), Nat.zero_mod]

/-- Half a step below `2^D` or less rounds up to `2^D` and wraps to 0. -/
theorem decodeEntry_wraps (he : e < 2 ^ ps.D)
    (high : 2 ^ ps.D - 2 ^ (ps.D - ps.B - 1) ≤ e) : decodeEntry ps e = 0 := by
  have step := step_eq_two_mul_half hlt
  have ring_size := two_pow_D_eq_step_mul ps
  have all_steps : (e + 2 ^ (ps.D - ps.B - 1)) / 2 ^ (ps.D - ps.B) = 2 ^ ps.B :=
    Nat.div_eq_of_lt_le (by rw [Nat.mul_comm, ← ring_size]; omega)
      (by rw [Nat.add_mul, Nat.mul_comm, ← ring_size]; omega)
  rw [decodeEntry_of_B_lt_D hlt, all_steps, Nat.mod_self]

end Steps

/-- Noise below the bound decodes to 0 (R150); at `B = D` the bound leaves only the noise 0. -/
theorem decodeEntry_of_magnitude_lt {a : Cell16} (ha : a.toNat < 2 ^ ps.D)
    (bound : magnitude ps.D a < 2 ^ (ps.D - ps.B - 1)) : decodeEntry ps a.toNat = 0 := by
  rw [magnitude, min_lt_iff] at bound
  obtain heq | hlt := (ps_B_le ps).eq_or_lt
  · rw [heq, Nat.sub_self] at bound
    rw [decodeEntry_of_B_eq_D heq ha]
    omega
  · obtain low | high := bound
    · exact decodeEntry_of_lt_half hlt low
    · exact decodeEntry_wraps hlt ha (by omega)

/-- A scaled value plus noise that decodes to 0 decodes to the value (R150). -/
theorem decodeEntry_mul_step_add_noise {v : Nat} (hv : v < 2 ^ ps.B)
    (noise : decodeEntry ps e = 0) :
    decodeEntry ps ((v * 2 ^ (ps.D - ps.B) + e) % 2 ^ ps.D) = v := by
  rw [decodeEntry_mod, decodeEntry_mul_step_add, noise, Nat.add_zero, Nat.mod_eq_of_lt hv]

/-- A scaled value decodes to itself. -/
theorem decodeEntry_mul_step {v : Nat} (hv : v < 2 ^ ps.B) :
    decodeEntry ps (v * 2 ^ (ps.D - ps.B)) = v := by
  have zero : decodeEntry ps 0 = 0 :=
    decodeEntry_of_magnitude_lt (a := 0) (Nat.two_pow_pos _) (by simp [magnitude])
  rw [← decodeEntry_mod]
  exact decodeEntry_mul_step_add_noise hv zero

end Rounding

/-- Settles O20, clause by clause: the cases `B = D` and `B < D`, a tie, and the entries nearest to
`2^D`. -/
theorem decodeRoundsHalfUp : Obligations.DecodeRoundsHalfUp := by
  intro ps e he
  exact ⟨rfl, decodeEntry_lt ps e, fun heq => decodeEntry_of_B_eq_D heq he, fun hlt =>
    ⟨decodeEntry_of_B_lt_D hlt e, decodeEntry_tie hlt, decodeEntry_wraps hlt he⟩⟩

/-! SUPPORT. `DEC` undoes `ENC`, also under noise (41_encode_decode.md R150): it is enough that each entry
rounds to the value of its cell of the plaintext. -/

section RoundTrip
variable {ps : ParamSet}

/-- Every entry of `M` rounds to the `B` plaintext bits of its cell (41_encode_decode.md R140). -/
def CellsDecodeTo (ps : ParamSet) (M : Matrix) (k : List Byte) : Prop :=
  ∀ i j, i < ps.m → j < ps.nCols →
    decodeEntry ps (M.entry i j).toNat = bitsBe k (ps.B * (i * ps.nCols + j)) ps.B

/-- The bytes decoded from such a matrix are the plaintext, when its pad bits are zero. -/
theorem decodeMatrix_eq_of_cells {M : Matrix} {k : List Byte} (cells : CellsDecodeTo ps M k)
    (hk : k.length = plainBytes ps)
    (pad : ∀ p, ps.B * ps.m * ps.nCols ≤ p → p < 8 * plainBytes ps → getbit k p = false) :
    decodeMatrix ps M = k := by
  refine bytes_ext (by rw [hk, decodeMatrix, putbits_length]) fun p hp => ?_
  rw [decodeMatrix, putbits_length] at hp
  rw [decodeMatrix, getbit_putbits _ hp, decodedBit]
  split
  next inside =>
    have hB := ps_B_pos ps
    have hrow : p / ps.B / ps.nCols < ps.m := by
      rw [Nat.div_div_eq_div_mul, Nat.div_lt_iff_lt_mul (Nat.mul_pos hB (ps_nCols_pos ps))]
      calc p < ps.B * ps.m * ps.nCols := inside
        _ = ps.m * (ps.B * ps.nCols) := by ring
    have hbit : p % ps.B < ps.B := Nat.mod_lt _ hB
    have position : ps.B * (p / ps.B) + (ps.B - 1 - (ps.B - 1 - p % ps.B)) = p := by
      have := Nat.div_add_mod p ps.B
      omega
    rw [cells _ _ hrow (Nat.mod_lt _ (ps_nCols_pos ps)), testBit_bitsBe, Nat.div_add_mod', position,
      decide_eq_true (by omega), Bool.true_and]
  next outside => exact (pad p (by omega) hp).symm

theorem encodeMatrix_cells (k : List Byte) : CellsDecodeTo ps (encodeMatrix ps k) k := by
  intro i j hi hj
  rw [(encodeMatrix_is ps k).2 i j hi hj, decodeEntry_mul_step (bitsBe_lt _ _ _)]

/-- An entry inside the shape is in the list. -/
theorem entry_mem {M : Matrix} {i j : Nat} (hlen : M.entries.length = M.rows.toNat * M.cols.toNat)
    (hi : i < M.rows.toNat) (hj : j < M.cols.toNat) : M.entry i j ∈ M.entries := by
  rw [Matrix.entry, List.getD_eq_getElem _ _ (hlen ▸ rowMajor_lt hi hj)]
  exact List.getElem_mem _

/-- Adding noise below the bound to an encoded plaintext leaves its cells (R150). -/
theorem matAdd_encodeMatrix_cells {E : Matrix} (legal : E.Legal ps) (hrows : E.rows.toNat = ps.m)
    (hcols : E.cols.toNat = ps.nCols)
    (bound : ∀ e ∈ E.entries, magnitude ps.D e < 2 ^ (ps.D - ps.B - 1)) (k : List Byte) :
    CellsDecodeTo ps (matAdd ps.D (encodeMatrix ps k) E) k := by
  intro i j hi hj
  obtain ⟨⟨krows, kcols, -⟩, kentry⟩ := encodeMatrix_is ps k
  have ⟨_, _, hlen, _⟩ := legal
  have noise : decodeEntry ps (E.entry i j).toNat = 0 :=
    decodeEntry_of_magnitude_lt (entry_lt legal i j)
      (bound _ (entry_mem hlen (hrows ▸ hi) (hcols ▸ hj)))
  rw [(matAdd_is ps _ E).2 i j (krows.symm ▸ hi) (kcols.symm ▸ hj)]
  simp only [kentry i j hi hj]
  exact decodeEntry_mul_step_add_noise (bitsBe_lt _ _ _) noise

end RoundTrip

section RoundTripCommands

/-- A command that passes its checks performs its write and completes (30_encoding.md R93). -/
theorem exec_of_effect_ok {i : Instr} {s : State} {w : Effect} (h : effectOf i s = .ok w) :
    exec i s = .next (s.apply w).complete := by
  rw [exec_eq_finish, h]; rfl

/-- A command that writes a matrix register leaves memory as it is, listed cells included. -/
theorem exec_matrix_of_effect_ok {i : Instr} {s : State} {d : MReg} {P : Matrix}
    (h : effectOf i s = .ok (.matrix d P)) :
    ∃ t, exec i s = .next t ∧ t.cfg = s.cfg ∧ t.dmem = s.dmem ∧ t.matrixAt d = some P ∧
      MatricesKeptBut d s t := by
  refine ⟨_, exec_of_effect_ok h, rfl, rfl, ?_, fun r hr => ?_⟩
  · simp [State.writeMatrix_matrixAt]
  · simp [State.writeMatrix_matrixAt, hr]

/-- `ENC` fills its register with the encoded bytes (R142). -/
theorem encEffect_writes_encodeMatrix {s : State} (md : MReg) {addr len : Word}
    (hlen : len.toNat = plainBytes s.cfg.ps) (range : addr.toNat + len.toNat ≤ s.cfg.dmemSize) :
    effectOf (.enc md addr len) s =
      .ok (.matrix md (encodeMatrix s.cfg.ps (s.dmem.readBytes addr.toNat len.toNat))) :=
  encEffect_ok_iff.mpr ⟨hlen, range, by rw [hlen]; rfl⟩

/-- `DEC` of a matrix whose cells round to those of a plaintext with zero pad bits leaves the plaintext
in its buffer (R144). -/
theorem exec_dec_restores {s : State} {c : Config} {addr len : Word} {ma : MReg} {M : Matrix}
    {k : List Byte} (hcfg : s.cfg = c) (wf : s.dmem.wf = true) (hM : s.matrixAt ma = some M)
    (hrows : M.rows.toNat = c.ps.m) (hcols : M.cols.toNat = c.ps.nCols)
    (hlen : len.toNat = plainBytes c.ps) (range : addr.toNat + len.toNat ≤ c.dmemSize)
    (cells : CellsDecodeTo c.ps M k) (hk : k.length = len.toNat)
    (pad : ∀ p, c.ps.B * c.ps.m * c.ps.nCols ≤ p → p < 8 * len.toNat → getbit k p = false) :
    ∃ t, exec (.dec addr len ma) s = .next t ∧ t.err = 0 ∧
      t.dmem.readBytes addr.toNat len.toNat = k := by
  subst hcfg
  have decoded : decodeMatrix s.cfg.ps M = k :=
    decodeMatrix_eq_of_cells cells (hk.trans hlen) (hlen ▸ pad)
  refine ⟨_, exec_of_effect_ok (decEffect_ok_iff.mpr
    ⟨M, hM, ⟨hrows, hcols⟩, hlen, range, rfl⟩), rfl, ?_⟩
  rw [decoded, ← hk]
  exact Memory.readBytes_writeBytes wf _ k

end RoundTripCommands

/-- Settles O23: `ENC` and `ADD` leave memory alone and fill a register whose every entry rounds to its
cell of the plaintext, so what `DEC` writes is the plaintext. -/
theorem decodeOfEncodePlusNoiseIsThePlaintext :
    Obligations.DecodeOfEncodePlusNoiseIsThePlaintext := by
  constructor
  · intro s mk me mc ak aout len E wf hne hE legal hrows hcols bound hlen rangeK rangeOut pad
    obtain ⟨s1, enc, cfg1, dmem1, hK, kept⟩ :=
      exec_matrix_of_effect_ok (encEffect_writes_encodeMatrix mk hlen rangeK)
    obtain ⟨⟨krows, kcols, -⟩, -⟩ :=
      encodeMatrix_is s.cfg.ps (s.dmem.readBytes ak.toNat len.toNat)
    obtain ⟨s2, add, cfg2, dmem2, hsum, -⟩ := exec_matrix_of_effect_ok (i := .add mc mk me)
      (addEffect_ok_iff.mpr ⟨_, E, hK, (kept me hne.symm).trans hE,
        ⟨BitVec.eq_of_toNat_eq (krows.trans hrows.symm),
          BitVec.eq_of_toNat_eq (kcols.trans hcols.symm)⟩, rfl⟩)
    rw [cfg1] at hsum cfg2
    obtain ⟨⟨sumRows, sumCols, -⟩, -⟩ := matAdd_is s.cfg.ps
      (encodeMatrix s.cfg.ps (s.dmem.readBytes ak.toNat len.toNat)) E
    obtain ⟨s3, dec, err, restored⟩ := exec_dec_restores cfg2 (by rwa [dmem2, dmem1]) hsum
      (sumRows.trans krows) (sumCols.trans kcols) hlen rangeOut
      (matAdd_encodeMatrix_cells legal hrows hcols bound _) (Memory.readBytes_length ..) pad
    exact ⟨s1, s2, s3, enc, add, dec, err, restored⟩
  · intro s mk ak aout len wf hlen rangeK rangeOut pad
    obtain ⟨s1, enc, cfg1, dmem1, hK, -⟩ :=
      exec_matrix_of_effect_ok (encEffect_writes_encodeMatrix mk hlen rangeK)
    obtain ⟨⟨krows, kcols, -⟩, -⟩ :=
      encodeMatrix_is s.cfg.ps (s.dmem.readBytes ak.toNat len.toNat)
    obtain ⟨s2, dec, err, restored⟩ := exec_dec_restores cfg1 (by rwa [dmem1]) hK krows kcols hlen
      rangeOut (encodeMatrix_cells _) (Memory.readBytes_length ..) pad
    exact ⟨s1, s2, enc, dec, err, restored⟩

end Sys2Proof.Machine

namespace Sys2Proof.Machine

/-! SUPPORT. `UNPACK` undoes `PACK` (42_pack_unpack.md R165): the `D` stream bits from `D·(i·c + j)` on are
those of entry `(i, j)`, and an entry below `2^D` is the number of its `D` bits. -/

section PackedStream
variable {ps : ParamSet} {M : Matrix} {i j k : Nat}

/-- The bits of entry `(i, j)` stand at `D·(i·c + j)` in the packed stream, most significant first
(42_pack_unpack.md R162). -/
theorem packedBit_at_entry {D : Nat} (hi : i < M.rows.toNat) (hj : j < M.cols.toNat) (hk : k < D) :
    packedBit D M (D * (i * M.cols.toNat + j) + k) = (M.entry i j).toNat.testBit (D - 1 - k) := by
  have inside : (i * M.cols.toNat + j) * D + k < D * M.rows.toNat * M.cols.toNat := by
    calc (i * M.cols.toNat + j) * D + k
        < M.rows.toNat * M.cols.toNat * D := rowMajor_lt (rowMajor_lt hi hj) hk
      _ = D * M.rows.toNat * M.cols.toNat := by ring
  rw [Nat.mul_comm D, packedBit, if_pos inside, rowMajor_div hk, rowMajor_mod hk, rowMajor_div hj,
    rowMajor_mod hj]

/-- The stream bits of an entry below `2^D` are that entry. -/
theorem bitsBe_packMatrix (hi : i < M.rows.toNat) (hj : j < M.cols.toNat)
    (hentry : (M.entry i j).toNat < 2 ^ ps.D) :
    bitsBe (packMatrix ps M) (ps.D * (i * M.cols.toNat + j)) ps.D = (M.entry i j).toNat := by
  rw [← bitsOf_testBit hentry]
  refine bitsOf_congr fun k hk => ?_
  have inside : ps.D * (i * M.cols.toNat + j) + k <
      8 * packedBytes ps M.rows.toNat M.cols.toNat := by
    calc ps.D * (i * M.cols.toNat + j) + k
        < ps.D * (i * M.cols.toNat + j + 1) := by rw [Nat.mul_succ]; omega
      _ ≤ ps.D * (M.rows.toNat * M.cols.toNat) := Nat.mul_le_mul_left _ (rowMajor_lt hi hj)
      _ = ps.D * M.rows.toNat * M.cols.toNat := (Nat.mul_assoc ..).symm
      _ ≤ 8 * packedBytes ps M.rows.toNat M.cols.toNat := (bytesFor_spec _).1
  rw [packMatrix, getbit_putbits _ inside, packedBit_at_entry hi hj hk, Nat.zero_add]

/-- Unpacking the packed bytes of a legal matrix gives the matrix back, shape and every entry. -/
theorem unpackMatrix_packMatrix (legal : M.Legal ps) :
    unpackMatrix ps.D M.rows.toNat M.cols.toNat (packMatrix ps M) = M := by
  obtain ⟨⟨hrows, hcols, hlen⟩, hentries⟩ :=
    unpackMatrix_is ps (packMatrix ps M) (toNat16_le M.rows) (toNat16_le M.cols)
  have ⟨_, _, hlenM, _⟩ := legal
  refine matrix_ext (BitVec.eq_of_toNat_eq hrows) (BitVec.eq_of_toNat_eq hcols)
    (by rw [hlen, hrows, hcols]) hlenM fun i j hi hj => BitVec.eq_of_toNat_eq ?_
  rw [hrows] at hi
  rw [hcols] at hj
  exact (hentries i j hi hj).trans (bitsBe_packMatrix hi hj (entry_lt legal i j))

@[simp] theorem packMatrix_length (ps : ParamSet) (M : Matrix) :
    (packMatrix ps M).length = packedBytes ps M.rows.toNat M.cols.toNat := putbits_length _ _

end PackedStream

/-- `PACK` leaves the packed bytes of its source in its buffer, and the configuration as it was
(42_pack_unpack.md R162). -/
theorem exec_pack_stores {s : State} {addr len : Word} {ma : MReg} {M : Matrix}
    (wf : s.dmem.wf = true) (hM : s.matrixAt ma = some M)
    (hlen : packedBytes s.cfg.ps M.rows.toNat M.cols.toNat ≤ len.toNat)
    (range : addr.toNat + len.toNat ≤ s.cfg.dmemSize) :
    ∃ t, exec (.pack addr len ma) s = .next t ∧ t.cfg = s.cfg ∧
      t.input addr (packedBytes s.cfg.ps M.rows.toNat M.cols.toNat) = packMatrix s.cfg.ps M := by
  refine ⟨_, exec_of_effect_ok (packEffect_ok_iff.mpr ⟨M, hM, hlen, range, rfl⟩), rfl, ?_⟩
  rw [← packMatrix_length]
  exact Memory.readBytes_writeBytes wf _ _

/-- Settles O26: `PACK` leaves the packed bytes in the buffer, and the matrix `UNPACK` builds from them is
the source. -/
theorem unpackOfPackIsTheMatrix : Obligations.UnpackOfPackIsTheMatrix := by
  intro s ma md addr len M wf hM legal hlen range
  have fits : packedBytes s.cfg.ps M.rows.toNat M.cols.toNat ≤ len.toNat := hlen.ge
  have ⟨rowsOk, colsOk, _, _⟩ := legal
  obtain ⟨s1, pack, cfg1, packed⟩ := exec_pack_stores wf hM fits range
  have writes : effectOf (.unpack md addr len M.rows M.cols) s1 = .ok (.matrix md M) := by
    refine unpackEffect_ok_iff.mpr ?_
    rw [cfg1, packed, unpackMatrix_packMatrix legal]
    exact ⟨⟨rowsOk, colsOk⟩, fits, range, rfl⟩
  have unpack := exec_of_effect_ok writes
  obtain ⟨hmd, ⟨err, -⟩, -⟩ := exec_matrixCompletion writes unpack
  exact ⟨s1, _, pack, unpack, err, hmd.trans hM.symm⟩

end Sys2Proof.Machine

namespace Sys2Proof.Machine

/-- Settles O31: both runs end with the matrix that their parameter set and seed generate, and these are
the same. -/
theorem genDependsOnTheSeedAlone : Obligations.GenDependsOnTheSeedAlone := by
  intro s s' t t' md md' addr addr' len len' samePs sameBytes ends ends' err err'
  have sameSeed : s.input addr (seedBytes s.cfg.ps) = s'.input addr' (seedBytes s.cfg.ps) :=
    Memory.readBytes_congr sameBytes
  have written := gen_completed_matrixAt ends err
  have written' := gen_completed_matrixAt ends' err'
  refine ⟨⟨_, written⟩, ?_⟩
  calc t.matrixAt md
      = some (genMatrix s.cfg.ps (s.input addr (seedBytes s.cfg.ps))) := written
    _ = some (genMatrix s'.cfg.ps (s'.input addr' (seedBytes s'.cfg.ps))) := by
        rw [sameSeed, samePs]
    _ = t'.matrixAt md' := written'.symm

end Sys2Proof.Machine

namespace Sys2Proof.Machine

/-! SUPPORT. What entry `(i, j)` of `SAMP` reads: the two bytes of its own input word
(44_sample.md R211, R214). -/

/-- A command that ends with code 0 passed all its checks (30_encoding.md R92). -/
theorem effectOf_ok_of_completed {i : Instr} {s t : State} (ends : exec i s = .next t)
    (err : t.err = 0) : ∃ w, effectOf i s = .ok w := by
  obtain ⟨e, -, rfl⟩ | ⟨w, passed, -⟩ := exec_cases ends
  · exact absurd err (code_ne_zero e)
  · exact ⟨w, passed⟩

section SampleEntries
variable {s s' : State} {addr : Word}

/-- The input word `k` of a buffer is the two bytes at `addr + 2k`, little-endian (44_sample.md R211). -/
theorem sampleWordAt_input (s : State) (addr : Word) {N k : Nat} (inside : 2 * k + 1 < N) :
    sampleWordAt (s.input addr N) k = BitVec.ofNat 16
      (fromLe16 (s.dmem.read (addr.toNat + 2 * k)) (s.dmem.read (addr.toNat + 2 * k + 1))) := by
  rw [sampleWordAt, State.input, Memory.readBytes_get _ _ (Nat.lt_of_succ_lt inside),
    Memory.readBytes_get _ _ inside, Nat.add_assoc]

/-- Two buffers that agree on the two bytes of entry `(i, j)` give the same sample there. -/
theorem sampleMatrix_entry_congr (f : BitVec 16 → Int) (D : Nat) {r c i j : Nat} (hc : c ≤ 65535)
    (hi : i < r) (hj : j < c)
    (low : s.dmem.read (addr.toNat + 2 * (i * c + j)) =
      s'.dmem.read (addr.toNat + 2 * (i * c + j)))
    (high : s.dmem.read (addr.toNat + 2 * (i * c + j) + 1) =
      s'.dmem.read (addr.toNat + 2 * (i * c + j) + 1)) :
    (sampleMatrix f D r c (s.input addr (sampleBytes r c))).entry i j =
      (sampleMatrix f D r c (s'.input addr (sampleBytes r c))).entry i j := by
  have inside : 2 * (i * c + j) + 1 < sampleBytes r c := by
    have := rowMajor_lt hi hj
    rw [sampleBytes, Nat.mul_assoc]
    omega
  have sameWord : sampleWordAt (s.input addr (sampleBytes r c)) (i * c + j) =
      sampleWordAt (s'.input addr (sampleBytes r c)) (i * c + j) := by
    rw [sampleWordAt_input s addr inside, sampleWordAt_input s' addr inside, low, high]
  rw [sampleMatrix, sampleMatrix, tabulate_entry _ hc hi hj, tabulate_entry _ hc hi hj, sameWord]

end SampleEntries

/-- Settles O34: the checks of `SAMP` depend on the configuration and the fields alone, so the second run
completes as the first does; then both write the sample of the same input word. -/
theorem sampEntriesAreIndependent : Obligations.SampEntriesAreIndependent := by
  intro s s' t t' md addr len n1 n2 P P' i j sameCfg hi hj low high ends ends' err hP hP'
  obtain ⟨_, passed⟩ := effectOf_ok_of_completed ends err
  obtain ⟨dims, hlen, range, rfl⟩ := sampEffect_ok_iff.mp passed
  have passed' : effectOf (.samp md addr len n1 n2) s' = .ok (.matrix md
      (sampleMatrix s'.cfg.sampleFn s'.cfg.ps.D n1.toNat n2.toNat
        (s'.input addr (sampleBytes n1.toNat n2.toNat)))) :=
    sampEffect_ok_iff.mpr ⟨sameCfg ▸ dims, hlen, sameCfg ▸ range, rfl⟩
  obtain ⟨written, -⟩ := exec_matrixCompletion passed ends
  obtain ⟨written', ⟨err', -⟩, -⟩ := exec_matrixCompletion passed' ends'
  obtain rfl := Option.some.inj (hP.symm.trans written)
  obtain rfl := Option.some.inj (hP'.symm.trans written')
  rw [← sameCfg]
  exact ⟨err', sampleMatrix_entry_congr _ _ (toNat16_le n2) hi hj low high⟩

end Sys2Proof.Machine

namespace Sys2Proof.Machine

/-! SUPPORT. The exceptions of the block (60_exceptions.md): which commands end with `IllegalCommand`
(R234) and with `UninitRegister` (R233), and what an error completion changes (R236). -/

section IllegalCommand

/-- An error completion leaves the host's coming moves (60_exceptions.md R236). -/
theorem ErrorCompletion.host_eq {e : ErrorCode} {s t : State} (h : ErrorCompletion e s t) :
    t.host = s.host := by
  obtain ⟨-, -, -, -, -, -, -, hhost, -⟩ := h
  exact hhost

/-- Two dimension fields are within the limits when both are in `[1, n]` (30_encoding.md R98). -/
theorem dimensionOk_and_iff {ps : ParamSet} {n1 n2 : BitVec 16} :
    (dimensionOk ps n1 && dimensionOk ps n2) = true ↔
      (1 ≤ n1.toNat ∧ n1.toNat ≤ ps.n) ∧ (1 ≤ n2.toNat ∧ n2.toNat ≤ ps.n) := by
  simp [dimensionOk]

/-- A command with a dimension outside the limits ends with `IllegalCommand`: only `UNPACK` and `SAMP`
have dimensions (30_encoding.md R98). -/
theorem exec_of_not_wellFormed {i : Instr} {s : State} (h : ¬ i.wellFormed s.cfg.ps = true) :
    ∃ t, exec i s = .next t ∧ ErrorCompletion .illegalCommand s t := by
  cases i with
  | unpack md addr len n1 n2 =>
    exact (unpack_shapeFromDimensions addr len).exec_outside (mt dimensionOk_and_iff.mpr h)
  | samp md addr len n1 n2 =>
    exact (samp_shapeFromDimensions addr len).exec_outside (mt dimensionOk_and_iff.mpr h)
  | _ => exact absurd rfl h

/-- Settles O9: the decoder rejects the descriptor, or accepts a command whose dimensions are its first
failing check; either end leaves the moves still to come. -/
theorem unacceptedDescriptorEndsWithIllegalCommand :
    Obligations.UnacceptedDescriptorEndsWithIllegalCommand := by
  intro s w rest hhost unaccepted
  suffices ∃ t, step s = .next t ∧ ErrorCompletion .illegalCommand (s.takeMove rest) t by
    obtain ⟨t, ht, raised⟩ := this
    exact ⟨t, ht, raised, raised.host_eq⟩
  cases hd : decode ⟨w, s.cmd1, s.cmd2, s.cmd3⟩ with
  | rejected e => exact step_of_decode_rejected hhost hd
  | ok i =>
    have illFormed : ¬ i.wellFormed (s.takeMove rest).cfg.ps = true :=
      fun wellFormed => unaccepted ⟨i, hd, wellFormed⟩
    have hstep : step s = exec i (s.takeMove rest) :=
      (step_writeReg hhost).trans (issue_of_decode_ok hd)
    rw [hstep]
    exact exec_of_not_wellFormed illFormed

end IllegalCommand

section SourceRegisters

/-- Reading a source ends in `UninitRegister` when the source is invalid or when all that follows ends in
the same error. -/
theorem source_bind_uninit {α : Type} {s : State} {r : MReg} {f : Matrix → Except ErrorCode α}
    (h : s.matrixAt r = none ∨ ∀ M, f M = .error .uninitRegister) :
    (s.source r >>= f) = .error .uninitRegister := by
  cases hM : s.matrixAt r with
  | none => rw [source_of_none hM, error_bind]
  | some M =>
    have later : ∀ M, f M = .error .uninitRegister := h.resolve_left (by simp [hM])
    rw [source_of_some hM, ok_bind, later]

/-- The sources are read before every other check, so an invalid one decides how the command ends
(60_exceptions.md R233, R238). -/
theorem effectOf_of_invalid_source {i : Instr} {s : State}
    (h : ∃ r ∈ sources i, s.matrixAt r = none) : effectOf i s = .error .uninitRegister := by
  cases i <;> simp only [sources, List.exists_mem_cons_iff, List.not_mem_nil, false_and, exists_false,
    or_false] at h
  case mul | add | sub =>
    exact source_bind_uninit (h.imp_right fun hb _ => source_bind_uninit (.inl hb))
  case mac =>
    exact source_bind_uninit (h.imp_right fun hbe _ =>
      source_bind_uninit (hbe.imp_right fun he _ => source_bind_uninit (.inl he)))
  case dec | pack => exact source_bind_uninit (.inl h)

/-- What a command checks and writes depends on no matrix register but its sources (10_state.md R26). -/
theorem effectOf_congr_mr {i : Instr} {s : State} {m : MatrixRegs}
    (h : ∀ r ∈ sources i, m.get r = s.mr.get r) : effectOf i { s with mr := m } = effectOf i s := by
  have hread : ∀ r ∈ sources i, State.source { s with mr := m } r = s.source r :=
    fun r hr => source_congr (h r hr)
  cases i
  case mul md ma mb | add md ma mb | sub md ma mb =>
    exact arithmetic_effect_congr (md := md) (ma := ma) (mb := mb) (me := ma) (by simp) rfl h
  case mac md ma mb me =>
    exact arithmetic_effect_congr (md := md) (ma := ma) (mb := mb) (me := me) (by simp) rfl h
  case dec addr len ma =>
    simp only [effectOf, decEffect, hread ma (.head _)]
    rfl
  case pack addr len ma =>
    simp only [effectOf, packEffect, hread ma (.head _)]
    rfl
  all_goals rfl

/-- The code a command ends with depends on its checks alone: the first that fails, or that none does
(60_exceptions.md R236, 10_state.md R34). -/
theorem exec_err_congr {i : Instr} {s s' t t' : State} (same : effectOf i s' = effectOf i s)
    (h : exec i s = .next t) (h' : exec i s' = .next t') : t'.err = t.err := by
  cases heffect : effectOf i s with
  | error e =>
    obtain ⟨⟨herr, -⟩, -⟩ := exec_errorCompletion heffect h
    obtain ⟨⟨herr', -⟩, -⟩ := exec_errorCompletion (same.trans heffect) h'
    exact herr'.trans herr.symm
  | ok w =>
    rw [exec_of_effect_ok heffect] at h
    rw [exec_of_effect_ok (same.trans heffect)] at h'
    cases h
    cases h'
    rfl

end SourceRegisters

/-- Settles O36: the sources are the first checks; writing a register that is no source leaves all checks
as they were; and `CLR` has none. -/
theorem invalidSourceEndsWithUninitRegister : Obligations.InvalidSourceEndsWithUninitRegister := by
  refine ⟨fun i s invalid => ?_, fun i s t t' r v notSource h h' => ?_, fun s md _ => ?_⟩
  · rw [exec_eq_finish]
    exact finish_error (effectOf_of_invalid_source invalid)
  · refine exec_err_congr (effectOf_congr_mr fun q hq => ?_) h h'
    exact MatrixRegs.get_set_other fun heq => notSource (heq ▸ hq)
  · exact ⟨_, exec_of_effect_ok rfl, rfl, MatrixRegs.get_set_same _ _ _⟩

/-- Settles O39: an end with a nonzero code is no completion, so it is `raise`. -/
theorem errorChangesNothingButStatus : Obligations.ErrorChangesNothingButStatus := by
  intro s t d h herr
  obtain ⟨e, rfl⟩ | ⟨i, w, -, -, rfl⟩ := issue_cases h
  · exact ⟨e, raise_errorCompletion s e⟩
  · exact absurd (State.complete_err _) herr

end Sys2Proof.Machine

namespace Sys2Proof.Machine

/-! SUPPORT. What clears `ESTICKY` and what makes a valid matrix register invalid
(70_reset_and_hazards.md R263). -/

section Invalidation
variable {s t : State} {r : MReg}

/-- `CLR` is the only command whose write makes a register invalid; every other command writes a value or
bytes (45_control.md R226, 30_encoding.md R93). -/
theorem eq_clr_of_effectOf_invalidate {i : Instr} (h : effectOf i s = .ok (.invalidate r)) :
    i = .clr r := by
  cases i with
  | clr md => cases h; rfl
  | _ =>
    simp only [effectOf, mulEffect_ok_iff, macEffect_ok_iff, addEffect_ok_iff, subEffect_ok_iff,
      encEffect_ok_iff, decEffect_ok_iff, packEffect_ok_iff, unpackEffect_ok_iff, genEffect_ok_iff,
      sampEffect_ok_iff, reduceCtorEq, and_false, exists_false] at h

/-- A write after which a valid register is invalid is the one that invalidates it. -/
theorem eq_invalidate_of_apply {w : Effect} (valid : s.matrixAt r ≠ none)
    (gone : (s.apply w).matrixAt r = none) : w = .invalidate r := by
  cases w with
  | matrix d M =>
    rw [State.apply_matrix, State.writeMatrix_matrixAt] at gone
    split at gone
    · cases gone
    · exact absurd gone valid
  | bytes addr bs => exact absurd gone valid
  | invalidate d =>
    rw [State.apply, State.invalidate_matrixAt] at gone
    split at gone
    case isTrue same => rw [same]
    case isFalse => exact absurd gone valid

/-- A descriptor that makes a valid register invalid is `CLR` of that register. -/
theorem decode_eq_clr_of_issue {d : Descriptor} (ends : s.issue d = .next t)
    (valid : s.matrixAt r ≠ none) (gone : t.matrixAt r = none) : decode d = .ok (.clr r) := by
  obtain ⟨e, rfl⟩ | ⟨i, w, decoded, passed, rfl⟩ := issue_cases ends
  · exact absurd gone valid
  · obtain rfl : w = .invalidate r := eq_invalidate_of_apply valid gone
    rw [decoded, eq_clr_of_effectOf_invalidate passed]

/-- A move that makes a valid register invalid is a reset or issues `CLR` of that register. -/
theorem Served.reset_or_clr {a : HostAction} (served : Served s a t) (valid : s.matrixAt r ≠ none)
    (gone : t.matrixAt r = none) : (∃ c, a = .reset c) ∨
      ∃ w, a = .writeReg 0x01 w ∧ decode (s.descriptor w) = .ok (.clr r) := by
  cases served with
  | issue ends => exact .inr ⟨_, rfl, decode_eq_clr_of_issue ends valid gone⟩
  | reset c => exact .inl ⟨c, rfl⟩
  | _ => exact absurd gone valid

/-- A step that leaves `ESTICKY` at 0 where a bit of it was set is a reset (10_state.md R35). -/
theorem reset_of_esticky_cleared (h : step s = .next t) (wasSet : s.esticky ≠ 0)
    (cleared : t.esticky = 0) : ∃ c rest, s.host = .reset c :: rest := by
  by_contra! notReset
  obtain ⟨-, keep⟩ := estickyAccumulatesUntilReset
  have noBit (k : Nat) : s.esticky.getLsbD k = false := by
    by_contra hk
    simpa [cleared] using keep s t h notReset k (by simpa using hk)
  exact wasSet (BitVec.eq_of_getLsbD_eq fun k _ => (noBit k).trans BitVec.getLsbD_zero.symm)

end Invalidation

/-- Settles O55: a reset leaves the state after reset; no other step clears a bit of `ESTICKY`; and of the
moves that are no reset only the issue of a `CLR` makes a valid register invalid. -/
theorem onlyResetAndClrInvalidate : Obligations.OnlyResetAndClrInvalidate := by
  refine ⟨fun s c rest hhost => ⟨_, step_reset hhost, rfl, State.afterReset_matrixAt s.cfg c⟩,
    fun s t => reset_of_esticky_cleared, fun s t r h valid gone => ?_⟩
  obtain ⟨-, rfl⟩ | ⟨a, rest, hhost, served⟩ := step_cases h
  · exact absurd gone valid
  · obtain ⟨c, rfl⟩ | ⟨w, rfl, decoded⟩ := served.reset_or_clr valid gone
    · exact .inl ⟨c, rest, hhost⟩
    · exact .inr ⟨w, rest, hhost, decoded⟩

end Sys2Proof.Machine

namespace Sys2Proof

/-! SUPPORT. The decoder and the encoder undo each other (30_encoding.md R90, R95, R96, R99): the decoder
accepts the fields that a row of the table of R95 allows, and those are the fields the encoder writes. -/

section RoundTrip

/-- The fields hold an opcode of the map, with the reserved and all unused fields zero (R95, R96). -/
def Fields.Legal (f : Fields) (o : Opcode) : Prop :=
  f.opcode = o.byte ∧ f.rsv = 0 ∧ f.unusedZero o.used = true

/-- The decoder accepts exactly the legal fields, for the command that their opcode builds from them. -/
theorem Fields.decode_eq_ok_iff {f : Fields} {i : Instr} :
    f.decode = .ok i ↔ ∃ o, f.Legal o ∧ i = o.build f := by
  constructor
  · intro h
    unfold Fields.decode at h
    split at h
    next => cases h
    next o ho =>
      split_ifs at h with hrsv hunused
      cases h
      exact ⟨o, ⟨(Opcode.byte_of_ofByte ho).symm, not_not.mp hrsv, hunused⟩, rfl⟩
  · rintro ⟨o, ⟨hop, hrsv, hunused⟩, rfl⟩
    simp [Fields.decode, hop, hrsv, hunused]

/-- The row of the opcode map that a command belongs to (R96). -/
def Instr.op : Instr → Opcode
  | .mul _ _ _ => .mul
  | .mac _ _ _ _ => .mac
  | .add _ _ _ => .add
  | .sub _ _ _ => .sub
  | .enc _ _ _ => .enc
  | .dec _ _ _ => .dec
  | .pack _ _ _ => .pack
  | .unpack _ _ _ _ _ => .unpack
  | .gen _ _ _ => .gen
  | .samp _ _ _ _ _ => .samp
  | .clr _ => .clr

/-- The encoder sets no field but those its row of R95 allows. -/
theorem Instr.fields_legal (i : Instr) : i.fields.Legal i.op := by
  cases i <;> exact ⟨rfl, rfl, by simp [Instr.fields, Instr.op, Opcode.used, Fields.unusedZero,
    Opcode.blank]⟩

/-- The operands the decoder reads are those the encoder wrote (R99). -/
theorem Instr.build_fields (i : Instr) : i.op.build i.fields = i := by
  cases i <;> simp [Instr.op, Opcode.build, Instr.fields]

/-- Legal fields hold nothing beyond what the encoder writes for the command built from them (R95). -/
theorem Fields.Legal.fields_build {f : Fields} {o : Opcode} (legal : f.Legal o) :
    (o.build f).fields = f := by
  obtain ⟨hop, hrsv, hunused⟩ := legal
  cases f
  cases o <;>
    simp_all [Fields.unusedZero, Opcode.used, Opcode.build, Instr.fields, Opcode.blank,
      MReg.toBits_ofBits]

/-- Settles O1: the fields of a command are legal for its row, and its row builds it again. -/
theorem decodeOfEncodeIsTheCommand : Obligations.DecodeOfEncodeIsTheCommand := by
  intro i
  rw [encode, decode_descriptor]
  exact Fields.decode_eq_ok_iff.mpr ⟨i.op, i.fields_legal, i.build_fields.symm⟩

/-- Settles O2: accepted fields are legal, so the encoder writes just these fields. -/
theorem encodeOfDecodeIsTheDescriptor : Obligations.EncodeOfDecodeIsTheDescriptor := by
  intro d i h
  obtain ⟨o, legal, rfl⟩ := Fields.decode_eq_ok_iff.mp h
  rw [encode, legal.fields_build, Descriptor.descriptor_fields]

/-- The rows of the table are those of the opcodes. -/
theorem mem_opcodeRows_iff {row : Machine.OpcodeRow} :
    row ∈ Machine.opcodeRows ↔ ∃ o, Machine.rowOf o = row := by
  rw [Machine.opcodeRows_eq_map_rowOf, List.mem_map]
  exact exists_congr fun o => and_iff_right (by cases o <;> simp)

/-- Settles O3: a descriptor fits a row just when its fields are legal for the row's opcode. -/
theorem decodeAcceptsExactlyTheOpcodeTable : Obligations.DecodeAcceptsExactlyTheOpcodeTable := by
  intro d
  constructor
  · rintro ⟨i, h⟩
    obtain ⟨o, legal, -⟩ := Fields.decode_eq_ok_iff.mp h
    exact ⟨_, mem_opcodeRows_iff.mpr ⟨o, rfl⟩, (Machine.rowOf_fits_iff o d).mpr legal⟩
  · rintro ⟨row, hrow, fits⟩
    obtain ⟨o, rfl⟩ := mem_opcodeRows_iff.mp hrow
    exact ⟨_, Fields.decode_eq_ok_iff.mpr ⟨o, (Machine.rowOf_fits_iff o d).mp fits, rfl⟩⟩

end RoundTrip

end Sys2Proof

namespace Sys2Proof.Machine

/-! SUPPORT. What every step keeps: the configuration and the invariant (00_scope.md R6; 10_state.md R22,
R23, R33 to R35; 20_memory.md R60). -/

section LegalWrites
variable {ps : ParamSet} {A B E : Matrix}

theorem Matrix.Legal.rows_bounds (h : A.Legal ps) : 1 ≤ A.rows.toNat ∧ A.rows.toNat ≤ ps.n := by
  obtain ⟨hrows, -⟩ := h
  exact hrows

theorem Matrix.Legal.cols_bounds (h : A.Legal ps) : 1 ≤ A.cols.toNat ∧ A.cols.toNat ≤ ps.n := by
  obtain ⟨-, hcols, -⟩ := h
  exact hcols

/-- The results of the arithmetic commands are legal values when their sources are
(40_matrix_arithmetic.md R127). -/
theorem matMul_legal (hA : A.Legal ps) (hB : B.Legal ps) : (matMul ps.D A B).Legal ps :=
  tabulate_legal _ ps hA.rows_bounds hB.cols_bounds fun _ _ => reduce_lt (ps_D_le ps) _

theorem matMulAdd_legal (hA : A.Legal ps) (hB : B.Legal ps) : (matMulAdd ps.D A B E).Legal ps :=
  tabulate_legal _ ps hA.rows_bounds hB.cols_bounds fun _ _ => reduce_lt (ps_D_le ps) _

theorem matAdd_legal (hA : A.Legal ps) : (matAdd ps.D A B).Legal ps :=
  tabulate_legal _ ps hA.rows_bounds hA.cols_bounds fun _ _ => reduce_lt (ps_D_le ps) _

theorem matSub_legal (hA : A.Legal ps) : (matSub ps.D A B).Legal ps :=
  tabulate_legal _ ps hA.rows_bounds hA.cols_bounds fun _ _ => reduce_lt (ps_D_le ps) _

variable (ps)

/-- A scaled `B`-bit value is a ring element (41_encode_decode.md R142). -/
theorem encodeMatrix_legal (k : List Byte) : (encodeMatrix ps k).Legal ps := by
  refine is_legal (encodeMatrix_is ps k) ⟨ps_m_pos ps, ps_m_le ps⟩
    ⟨ps_nCols_pos ps, ps_nCols_le ps⟩ fun i j _ _ => ?_
  rw [two_pow_D_eq_step_mul, Nat.mul_comm]
  exact Nat.mul_lt_mul_of_pos_left (bitsBe_lt _ _ _) (Nat.two_pow_pos _)

theorem genMatrix_legal (seed : List Byte) : (genMatrix ps seed).Legal ps :=
  is_legal (genMatrix_is ps seed) ⟨ps_n_pos ps, le_rfl⟩ ⟨ps_n_pos ps, le_rfl⟩
    fun _ _ _ _ => Nat.mod_lt _ (Nat.two_pow_pos _)

variable {ps} {n1 n2 : BitVec 16} (h1 : 1 ≤ n1.toNat ∧ n1.toNat ≤ ps.n)
  (h2 : 1 ≤ n2.toNat ∧ n2.toNat ≤ ps.n)
include h1 h2

theorem unpackMatrix_legal (buf : List Byte) :
    (unpackMatrix ps.D n1.toNat n2.toNat buf).Legal ps :=
  is_legal (unpackMatrix_is ps buf (toNat16_le n1) (toNat16_le n2)) h1 h2
    fun _ _ _ _ => bitsBe_lt _ _ _

theorem sampleMatrix_legal (f : BitVec 16 → Int) (buf : List Byte) :
    (sampleMatrix f ps.D n1.toNat n2.toNat buf).Legal ps :=
  tabulate_legal _ ps h1 h2 fun _ _ => reduce_lt (ps_D_le ps) _

end LegalWrites

section Invariant

/-- From a state with the invariant, what a command writes is a legal register value or lies inside
`DMEM`. -/
theorem effectOf_legal {s : State} (inv : s.Inv) {i : Instr} {w : Effect}
    (h : effectOf i s = .ok w) : w.Legal s.cfg := by
  obtain ⟨legal, -⟩ := inv
  cases i with
  | mul md ma mb =>
    obtain ⟨A, B, hA, hB, -, rfl⟩ := mulEffect_ok_iff.mp h
    exact matMul_legal (legal ma A hA) (legal mb B hB)
  | mac md ma mb me =>
    obtain ⟨A, B, E, hA, hB, -, -, rfl⟩ := macEffect_ok_iff.mp h
    exact matMulAdd_legal (legal ma A hA) (legal mb B hB)
  | add md ma mb =>
    obtain ⟨A, B, hA, -, -, rfl⟩ := addEffect_ok_iff.mp h
    exact matAdd_legal (legal ma A hA)
  | sub md ma mb =>
    obtain ⟨A, B, hA, -, -, rfl⟩ := subEffect_ok_iff.mp h
    exact matSub_legal (legal ma A hA)
  | enc md addr len =>
    obtain ⟨-, -, rfl⟩ := encEffect_ok_iff.mp h
    exact encodeMatrix_legal _ _
  | dec addr len ma =>
    obtain ⟨M, -, -, hlen, range, rfl⟩ := decEffect_ok_iff.mp h
    rwa [Effect.Legal, decodeMatrix, putbits_length, ← hlen]
  | pack addr len ma =>
    obtain ⟨M, -, hlen, range, rfl⟩ := packEffect_ok_iff.mp h
    rw [Effect.Legal, packMatrix_length]
    omega
  | unpack md addr len n1 n2 =>
    obtain ⟨⟨h1, h2⟩, -, -, rfl⟩ := unpackEffect_ok_iff.mp h
    exact unpackMatrix_legal h1 h2 _
  | gen md addr len =>
    obtain ⟨-, -, rfl⟩ := genEffect_ok_iff.mp h
    exact genMatrix_legal _ _
  | samp md addr len n1 n2 =>
    obtain ⟨⟨h1, h2⟩, -, -, rfl⟩ := sampEffect_ok_iff.mp h
    exact sampleMatrix_legal h1 h2 _ _
  | clr md => cases h; trivial

/-- Every descriptor keeps the invariant: it raises an error or performs a legal write. -/
theorem issue_inv {s t : State} {d : Descriptor} (inv : s.Inv) (h : s.issue d = .next t) :
    t.Inv := by
  obtain ⟨e, rfl⟩ | ⟨i, w, -, hw, rfl⟩ := issue_cases h
  · exact raise_inv inv e
  · exact apply_complete_inv inv (effectOf_legal inv hw)

theorem write_inv {s : State} (inv : s.Inv) {a : Nat} (inside : a < s.cfg.dmemSize) (v : Byte) :
    State.Inv { s with dmem := s.dmem.write a v } := by
  obtain ⟨legal, wf, bound, sticky⟩ := inv
  exact ⟨legal, Memory.write_wf wf a v, Memory.write_cells_bound bound inside v, sticky⟩

theorem afterReset_inv (c : Config) (contents : Nat) : (State.afterReset c contents).Inv := by
  refine ⟨fun r M hM => ?_, Memory.wf_empty contents, by simp, BitVec.getLsbD_zero,
    fun h => absurd rfl h⟩
  rw [State.afterReset_matrixAt] at hM
  cases hM

/-- Serving a move keeps the invariant. -/
theorem Served.inv {s t : State} {a : HostAction} (served : Served s a t) (inv : s.Inv) :
    t.Inv := by
  cases served with
  | writeByte v inside => exact write_inv inv inside v
  | issue ends => exact issue_inv inv ends
  | reset c => exact afterReset_inv s.cfg c
  | _ => exact inv

/-- Settles O50: an idle step changes nothing, and serving a move keeps the invariant. -/
theorem everyStepKeepsTheInvariant : Obligations.EveryStepKeepsTheInvariant := by
  intro s t inv h
  obtain ⟨-, rfl⟩ | ⟨a, rest, -, served⟩ := step_cases h
  · exact inv
  · exact served.inv inv

/-- Settles O51: right after reset no register is valid, no cell is listed, and no error is recorded. -/
theorem invariantHoldsAfterReset : Obligations.InvariantHoldsAfterReset :=
  ⟨afterReset_inv, afterReset_inv .frodo640 0⟩

/-- Settles O52. -/
theorem configurationNeverChanges : Obligations.ConfigurationNeverChanges :=
  fun _ _ => step_cfg

end Invariant

end Sys2Proof.Machine

namespace Sys2Proof.Machine

/-! SUPPORT. A command with every check passed ends with its one write (30_encoding.md R93). -/

section Completion

/-- A command whose checks pass and whose write is a matrix register completes with that write and
changes nothing else but `STATUS`. -/
theorem exec_completes_matrix {i : Instr} {s : State} {d : MReg} {P : Matrix}
    (h : effectOf i s = .ok (.matrix d P)) :
    ∃ t, exec i s = .next t ∧ MatrixCompletion d P s t :=
  exec_eq_finish i s ▸ finish_matrix h

/-- A command whose checks pass and whose write is a bit stream completes with those bytes and changes
nothing else but `STATUS`. -/
theorem exec_completes_bytes {i : Instr} {s : State} (wf : s.dmem.wf = true) {addr N : Nat}
    {f : Nat → Bool} (h : effectOf i s = .ok (.bytes addr (putbits N f))) :
    ∃ t, exec i s = .next t ∧ BytesCompletion addr N f s t :=
  exec_eq_finish i s ▸ finish_bytes wf h

/-- The numbers a matrix holds may be named by any equal formula. -/
theorem Matrix.Is.congr {P : Matrix} {r c : Nat} {f g : Nat → Nat → Nat} (h : P.Is r c f)
    (hfg : ∀ i j, i < r → j < c → f i j = g i j) : P.Is r c g := by
  obtain ⟨shape, entries⟩ := h
  exact ⟨shape, fun i j hi hj => (entries i j hi hj).trans (hfg i j hi hj)⟩

end Completion

/-! SUPPORT. What `MUL`, `MAC`, `ADD` and `SUB` write (40_matrix_arithmetic.md R120 to R125): the laws of
the four matrix operations say what the entries are. -/

section ArithmeticCompletion

/-- Settles O10: valid sources that fit pass every check, and `dot` is the rule's sum. -/
theorem mulWritesTheReducedProduct : Obligations.MulWritesTheReducedProduct := by
  intro s md ma mb A B hA hB fits
  obtain ⟨t, ends, completed⟩ := exec_completes_matrix (i := .mul md ma mb)
    (mulEffect_ok_iff.mpr ⟨A, B, hA, hB, fits, rfl⟩)
  refine ⟨t, _, ends, completed, (matMul_is s.cfg.ps A B).congr fun i j _ _ => ?_⟩
  rw [dot_eq_sum]

/-- Settles O11: as O10, with the addend inside the one reduction. -/
theorem macWritesTheReducedProductPlusAddend :
    Obligations.MacWritesTheReducedProductPlusAddend := by
  intro s md ma mb me A B E hA hB hE inner rows cols
  obtain ⟨t, ends, completed⟩ := exec_completes_matrix (i := .mac md ma mb me)
    (macEffect_ok_iff.mpr ⟨A, B, E, hA, hB, hE, ⟨inner, rows, cols⟩, rfl⟩)
  refine ⟨t, _, ends, completed, (matMulAdd_is s.cfg.ps A B E).congr fun i j _ _ => ?_⟩
  rw [dot_eq_sum]

/-- Settles O12: sources of one shape pass every check. -/
theorem addWritesTheReducedSum : Obligations.AddWritesTheReducedSum := by
  intro s md ma mb A B hA hB rows cols
  obtain ⟨t, ends, completed⟩ := exec_completes_matrix (i := .add md ma mb)
    (addEffect_ok_iff.mpr ⟨A, B, hA, hB, ⟨rows, cols⟩, rfl⟩)
  exact ⟨t, _, ends, completed, matAdd_is s.cfg.ps A B⟩

/-- The difference of two ring elements needs at most one `2^D` added (R120, R125). -/
theorem sub_emod_toNat {a b q : Nat} (ha : a < q) (hb : b < q) :
    ((a - b : Int) % q).toNat = if b ≤ a then a - b else a + q - b := by
  split
  case isTrue le =>
    rw [Int.emod_eq_of_lt (by omega) (by omega)]
    omega
  case isFalse gt =>
    rw [← Int.add_emod_right, Int.emod_eq_of_lt (by omega) (by omega)]
    omega

/-- Settles O13: the entries are those of `matSub`; on ring elements the reduction is `sub_emod_toNat`. -/
theorem subWritesTheReducedDifference : Obligations.SubWritesTheReducedDifference := by
  intro s md ma mb A B hA hB rows cols
  obtain ⟨t, ends, completed⟩ := exec_completes_matrix (i := .sub md ma mb)
    (subEffect_ok_iff.mpr ⟨A, B, hA, hB, ⟨rows, cols⟩, rfl⟩)
  refine ⟨t, _, ends, completed, matSub_is s.cfg.ps A B, fun legalA legalB => ?_⟩
  exact (matSub_is s.cfg.ps A B).congr fun i j _ _ =>
    sub_emod_toNat (entry_lt legalA i j) (entry_lt legalB i j)

end ArithmeticCompletion

end Sys2Proof.Machine

namespace Sys2Proof

/-! SUPPORT. The ring laws (40_matrix_arithmetic.md section 6). A matrix of entries in `[0, 2^D)` stands
for a Mathlib matrix over `ZMod (2^D)` and is determined by it; the four operations stand for Mathlib's
there, so each law is Mathlib's. -/

section Residues
open Machine (matAdd matSub matMul matMulAdd)

variable {ps : ParamSet} {r k c : Nat} {A B E : Machine.Matrix}

/-- The `r` by `c` matrices of residues modulo `2^D`. -/
abbrev Residues (ps : ParamSet) (r c : Nat) : Type := Matrix (Fin r) (Fin c) (ZMod (2 ^ ps.D))

/-- `M` is an `r` by `c` matrix of entries in `[0, 2^D)`, and `R` holds their residues modulo `2^D`. -/
structure StandsFor (M : Machine.Matrix) (R : Residues ps r c) : Prop where
  shape : M.Shape r c
  entry_lt : ∀ i j, i < r → j < c → (M.entry i j).toNat < 2 ^ ps.D
  residue : ∀ (i : Fin r) (j : Fin c), ((M.entry i j).toNat : ZMod (2 ^ ps.D)) = R i j

/-- Matrices that stand for the same residues are equal. -/
theorem StandsFor.eq {R S : Residues ps r c} (hA : StandsFor A R) (hB : StandsFor B S)
    (h : R = S) : A = B := by
  obtain ⟨rowsA, colsA, lenA⟩ := hA.shape
  obtain ⟨rowsB, colsB, lenB⟩ := hB.shape
  refine Machine.matrix_ext (BitVec.eq_of_toNat_eq (rowsA.trans rowsB.symm))
    (BitVec.eq_of_toNat_eq (colsA.trans colsB.symm)) (by rw [lenA, rowsA, colsA])
    (by rw [lenB, rowsB, colsB]) fun i j hi hj => BitVec.eq_of_toNat_eq ?_
  rw [rowsA] at hi
  rw [colsA] at hj
  have same : ((A.entry i j).toNat : ZMod (2 ^ ps.D)) = (B.entry i j).toNat := by
    rw [hA.residue ⟨i, hi⟩ ⟨j, hj⟩, hB.residue ⟨i, hi⟩ ⟨j, hj⟩, h]
  rwa [ZMod.natCast_eq_natCast_iff', Nat.mod_eq_of_lt (hA.entry_lt i j hi hj),
    Nat.mod_eq_of_lt (hB.entry_lt i j hi hj)] at same

/-- A legal register value stands for its residues (10_state.md R23). -/
theorem exists_standsFor {rows cols : BitVec 16} (legal : A.Legal ps) (hr : A.rows = rows)
    (hc : A.cols = cols) : ∃ R : Residues ps rows.toNat cols.toNat, StandsFor A R := by
  subst hr hc
  have ⟨_, _, hlen, _⟩ := legal
  exact ⟨.of fun i j => ((A.entry i j).toNat : ZMod (2 ^ ps.D)), ⟨rfl, rfl, hlen⟩,
    fun i j _ _ => Machine.entry_lt legal i j, fun _ _ => rfl⟩

/-- Reduced numbers stand for their residues. -/
theorem standsFor_of_is {f : Nat → Nat → Nat} (is : A.Is r c f) (lt : ∀ i j, f i j < 2 ^ ps.D)
    {R : Residues ps r c} (residue : ∀ (i : Fin r) (j : Fin c), (f i j : ZMod (2 ^ ps.D)) = R i j) :
    StandsFor A R := by
  obtain ⟨shape, entries⟩ := is
  exact ⟨shape, fun i j hi hj => entries i j hi hj ▸ lt i j,
    fun i j => entries i j i.isLt j.isLt ▸ residue i j⟩

/-- `ADD` stands for the sum (R124). -/
theorem StandsFor.add {R S : Residues ps r c} (hA : StandsFor A R) (hB : StandsFor B S) :
    StandsFor (matAdd ps.D A B) (R + S) := by
  obtain ⟨rfl, rfl, -⟩ := hA.shape
  refine standsFor_of_is (Machine.matAdd_is ps A B) (fun _ _ => Nat.mod_lt _ (Nat.two_pow_pos _))
    fun i j => ?_
  rw [ZMod.natCast_mod, Nat.cast_add, hA.residue, hB.residue, Matrix.add_apply]

/-- `SUB` stands for the difference (R125). -/
theorem StandsFor.sub {R S : Residues ps r c} (hA : StandsFor A R) (hB : StandsFor B S) :
    StandsFor (matSub ps.D A B) (R - S) := by
  obtain ⟨rfl, rfl, -⟩ := hA.shape
  have pos : (0 : Int) < (2 ^ ps.D : Nat) := mod_cast Nat.two_pow_pos ps.D
  refine standsFor_of_is (Machine.matSub_is ps A B) (fun i j => ?_) fun i j => ?_
  · have := Int.emod_lt_of_pos ((A.entry i j).toNat - (B.entry i j).toNat : Int) pos
    omega
  · rw [← Int.cast_natCast, Int.toNat_of_nonneg (Int.emod_nonneg _ pos.ne'), ZMod.intCast_mod,
      Int.cast_sub, Int.cast_natCast, Int.cast_natCast, hA.residue, hB.residue, Matrix.sub_apply]

/-- The unreduced sum of products stands for the product (R122). -/
theorem StandsFor.dot {R : Residues ps r k} {S : Residues ps k c} (hA : StandsFor A R)
    (hB : StandsFor B S) (i : Fin r) (j : Fin c) :
    (Machine.dot A B i j k : ZMod (2 ^ ps.D)) = (R * S) i j := by
  rw [Machine.dot_eq_sum, Finset.sum_range, Matrix.mul_apply, Nat.cast_sum]
  exact Finset.sum_congr rfl fun x _ => by rw [Nat.cast_mul, hA.residue, hB.residue]

/-- `MUL` stands for the product (R122). -/
theorem StandsFor.mul {R : Residues ps r k} {S : Residues ps k c} (hA : StandsFor A R)
    (hB : StandsFor B S) : StandsFor (matMul ps.D A B) (R * S) := by
  obtain ⟨rfl, rfl, -⟩ := hA.shape
  obtain ⟨-, rfl, -⟩ := hB.shape
  refine standsFor_of_is (Machine.matMul_is ps A B) (fun _ _ => Nat.mod_lt _ (Nat.two_pow_pos _))
    fun i j => ?_
  rw [ZMod.natCast_mod, hA.dot hB]

/-- `MAC` stands for the product plus the addend (R123). -/
theorem StandsFor.mulAdd {R : Residues ps r k} {S : Residues ps k c} {T : Residues ps r c}
    (hA : StandsFor A R) (hB : StandsFor B S) (hE : StandsFor E T) :
    StandsFor (matMulAdd ps.D A B E) (R * S + T) := by
  obtain ⟨rfl, rfl, -⟩ := hA.shape
  obtain ⟨-, rfl, -⟩ := hB.shape
  refine standsFor_of_is (Machine.matMulAdd_is ps A B E)
    (fun _ _ => Nat.mod_lt _ (Nat.two_pow_pos _)) fun i j => ?_
  rw [ZMod.natCast_mod, Nat.cast_add, hA.dot hB, hE.residue, Matrix.add_apply]

/-- Settles O17: the laws of addition of matrices over `ZMod (2^D)`. -/
theorem additiveRingLaws : Obligations.AdditiveRingLaws := by
  intro ps X Y Z legalX legalY legalZ
  obtain ⟨R, hX⟩ := exists_standsFor legalX rfl rfl
  refine ⟨fun ⟨rows, cols⟩ => ?_, fun ⟨rows, cols, rows', cols'⟩ => ?_,
    fun ⟨inner, rows, cols⟩ => ?_⟩
  · obtain ⟨S, hY⟩ := exists_standsFor legalY rows.symm cols.symm
    exact ⟨(hX.add hY).eq (hY.add hX) (add_comm R S),
      ((hX.add hY).sub hY).eq hX (add_sub_cancel_right R S),
      ((hX.sub hY).add hY).eq hX (sub_add_cancel R S)⟩
  · obtain ⟨S, hY⟩ := exists_standsFor legalY rows.symm cols.symm
    obtain ⟨T, hZ⟩ := exists_standsFor legalZ (rows.trans rows').symm (cols.trans cols').symm
    exact ((hX.add hY).add hZ).eq (hX.add (hY.add hZ)) (add_assoc R S T)
  · obtain ⟨S, hY⟩ := exists_standsFor legalY inner.symm rfl
    obtain ⟨T, hZ⟩ := exists_standsFor legalZ rows cols
    exact (hX.mulAdd hY hZ).eq ((hX.mul hY).add hZ) rfl

/-- The 2 by 2 matrix with a single 1. -/
def unitMatrix (i j : Nat) : Machine.Matrix :=
  .tabulate 2 2 fun i' j' => if i' = i ∧ j' = j then 1 else 0

theorem unitMatrix_legal (ps : ParamSet) (i j : Nat) : (unitMatrix i j).Legal ps := by
  have one_lt : 1 < 2 ^ ps.D := Nat.one_lt_two_pow (by have := Machine.ps_D_pos ps; omega)
  have two_le : 2 ≤ ps.n := le_trans (by omega) ps.legal.1.2.1
  refine Machine.tabulate_legal _ ps ⟨by omega, two_le⟩ ⟨by omega, two_le⟩ fun i' j' => ?_
  split
  · simpa using one_lt
  · simp

/-- The products of two unit matrices in the two orders differ in entry `(0, 0)`: 1 and 0. -/
theorem matMul_unitMatrix_ne (ps : ParamSet) :
    matMul ps.D (unitMatrix 0 1) (unitMatrix 1 0) ≠
      matMul ps.D (unitMatrix 1 0) (unitMatrix 0 1) := by
  have one_lt : 1 < 2 ^ ps.D := Nat.one_lt_two_pow (by have := Machine.ps_D_pos ps; omega)
  have one : ((matMul ps.D (unitMatrix 0 1) (unitMatrix 1 0)).entry 0 0).toNat = 1 :=
    calc _ = Machine.dot (unitMatrix 0 1) (unitMatrix 1 0) 0 0 2 % 2 ^ ps.D :=
          (Machine.matMul_is ps _ _).2 0 0 (by decide) (by decide)
      _ = 1 % 2 ^ ps.D := congrArg (· % 2 ^ ps.D) (by decide)
      _ = 1 := Nat.mod_eq_of_lt one_lt
  have zero : ((matMul ps.D (unitMatrix 1 0) (unitMatrix 0 1)).entry 0 0).toNat = 0 :=
    calc _ = Machine.dot (unitMatrix 1 0) (unitMatrix 0 1) 0 0 2 % 2 ^ ps.D :=
          (Machine.matMul_is ps _ _).2 0 0 (by decide) (by decide)
      _ = 0 % 2 ^ ps.D := congrArg (· % 2 ^ ps.D) (by decide)
      _ = 0 := Nat.zero_mod _
  intro same
  rw [same, zero] at one
  cases one

/-- Settles O18: the laws of multiplication of matrices over `ZMod (2^D)`; two unit matrices do not
commute. -/
theorem multiplicativeRingLaws : Obligations.MultiplicativeRingLaws := by
  refine ⟨fun ps X Y Z legalX legalY legalZ => ?_, fun ps => ⟨unitMatrix 0 1, unitMatrix 1 0,
    unitMatrix_legal ps 0 1, unitMatrix_legal ps 1 0, rfl, rfl, rfl, matMul_unitMatrix_ne ps⟩⟩
  obtain ⟨R, hX⟩ := exists_standsFor legalX rfl rfl
  refine ⟨fun ⟨innerXY, innerYZ⟩ => ?_, fun ⟨inner, rows, cols⟩ => ?_,
    fun ⟨rows, cols, inner⟩ => ?_⟩
  · obtain ⟨S, hY⟩ := exists_standsFor legalY innerXY.symm rfl
    obtain ⟨T, hZ⟩ := exists_standsFor legalZ innerYZ.symm rfl
    exact ((hX.mul hY).mul hZ).eq (hX.mul (hY.mul hZ)) (Matrix.mul_assoc R S T)
  · obtain ⟨S, hY⟩ := exists_standsFor legalY inner.symm rfl
    obtain ⟨T, hZ⟩ := exists_standsFor legalZ (inner.trans rows).symm cols.symm
    exact ⟨(hX.mul (hY.add hZ)).eq ((hX.mul hY).add (hX.mul hZ)) (Matrix.mul_add R S T),
      (hX.mul (hY.sub hZ)).eq ((hX.mul hY).sub (hX.mul hZ)) (Matrix.mul_sub R S T)⟩
  · obtain ⟨S, hY⟩ := exists_standsFor legalY rows.symm cols.symm
    obtain ⟨T, hZ⟩ := exists_standsFor legalZ (cols.trans inner).symm rfl
    exact ⟨((hX.add hY).mul hZ).eq ((hX.mul hZ).add (hY.mul hZ)) (Matrix.add_mul R S T),
      ((hX.sub hY).mul hZ).eq ((hX.mul hZ).sub (hY.mul hZ)) (Matrix.sub_mul R S T)⟩

end Residues

end Sys2Proof

namespace Sys2Proof.Machine

/-! SUPPORT. The bits that `ENC` and `DEC` move, and the exact margin of the rounding
(41_encode_decode.md R140 to R144, section 4). -/

section EncodedBits
variable {ps : ParamSet}

/-- The `B` stream bits of a cell stand in the top `B` of the `D` bits of its entry (R142). -/
theorem encodeMatrix_getLsbD (k : List Byte) {i j : Nat} (hi : i < ps.m) (hj : j < ps.nCols)
    (b : Nat) : ((encodeMatrix ps k).entry i j).getLsbD b =
      if ps.D - ps.B ≤ b ∧ b < ps.D then
        getbit k (ps.B * (i * ps.nCols + j) + (ps.D - 1 - b))
      else false := by
  have hB := ps_B_le ps
  rw [← BitVec.testBit_toNat, (encodeMatrix_is ps k).2 i j hi hj, Nat.testBit_mul_two_pow,
    testBit_bitsBe]
  split
  case isTrue top =>
    have position : ps.B - 1 - (b - (ps.D - ps.B)) = ps.D - 1 - b := by omega
    rw [position, decide_eq_true top.1, decide_eq_true (by omega), Bool.true_and, Bool.true_and]
  case isFalse low =>
    by_cases above : ps.D - ps.B ≤ b
    · rw [decide_eq_false (p := b - (ps.D - ps.B) < ps.B) (by omega), Bool.false_and,
        Bool.and_false]
    · rw [decide_eq_false above, Bool.false_and]

/-- Settles O19: the length and the range check pass, and `encodeMatrix` puts the bits on top. -/
theorem encPutsThePlaintextBitsOnTop : Obligations.EncPutsThePlaintextBitsOnTop := by
  intro s md addr len hlen range
  obtain ⟨t, ends, completed⟩ :=
    exec_completes_matrix (encEffect_writes_encodeMatrix (s := s) md hlen range)
  obtain ⟨shape, -⟩ := encodeMatrix_is s.cfg.ps (s.dmem.readBytes addr.toNat len.toNat)
  exact ⟨t, _, ends, completed, shape, fun i j b hi hj _ => encodeMatrix_getLsbD _ hi hj b⟩

/-- Settles O22: the shape, length and range checks pass, and the stream written is `decodedBit`, the
rule's rounding bit by bit. -/
theorem decWritesTheRoundedCells : Obligations.DecWritesTheRoundedCells := by
  intro s addr len ma M wf hM rows cols hlen range
  exact exec_completes_bytes (i := .dec addr len ma) wf
    (decEffect_ok_iff.mpr ⟨M, hM, ⟨rows, cols⟩, hlen, range, rfl⟩)

end EncodedBits

section Margin
variable {ps : ParamSet}

/-- The rounding of an integer modulo `2^D`: whole steps of the encoding pass through it. -/
theorem decodeEntry_int_mul_step_add (ps : ParamSet) (v : Nat) (d : Int) :
    decodeEntry ps (((v * 2 ^ (ps.D - ps.B) : Nat) + d) % (2 ^ ps.D : Nat)).toNat =
      (v + decodeEntry ps (d % (2 ^ ps.D : Nat)).toNat) % 2 ^ ps.B := by
  have pos : (2 ^ ps.D : Nat) ≠ (0 : Int) := mod_cast (Nat.two_pow_pos ps.D).ne'
  have residue := Int.toNat_of_nonneg (Int.emod_nonneg d pos)
  rw [← decodeEntry_mul_step_add, ← decodeEntry_mod ps (_ + _)]
  congr 1
  refine Int.natCast_inj.mp ?_
  rw [Int.toNat_of_nonneg (Int.emod_nonneg _ pos), Int.natCast_emod, Int.natCast_add, residue,
    Int.add_emod_emod]

/-- A value plus a carry below `2^B` is the value again only when there is no carry. -/
theorem add_mod_eq_self_iff {v x q : Nat} (hv : v < q) (hx : x < q) : (v + x) % q = v ↔ x = 0 := by
  constructor
  · intro h
    by_cases le : v + x < q
    · rw [Nat.mod_eq_of_lt le] at h; omega
    · rw [Nat.mod_eq_sub_mod (by omega), Nat.mod_eq_of_lt (by omega)] at h; omega
  · rintro rfl
    rw [Nat.add_zero, Nat.mod_eq_of_lt hv]

/-- For `B < D` the entries that round to 0 are those within half a step of a multiple of `2^D`, the
upper half excluded (R143). -/
theorem decodeEntry_eq_zero_iff (hlt : ps.B < ps.D) {e : Nat} (he : e < 2 ^ ps.D) :
    decodeEntry ps e = 0 ↔
      e < 2 ^ (ps.D - ps.B - 1) ∨ 2 ^ ps.D - 2 ^ (ps.D - ps.B - 1) ≤ e := by
  refine ⟨fun h => ?_, fun h => h.elim (decodeEntry_of_lt_half hlt) (decodeEntry_wraps hlt he)⟩
  by_contra! between
  obtain ⟨low, high⟩ := between
  have step := step_eq_two_mul_half hlt
  have pos : 0 < 2 ^ (ps.D - ps.B) := Nat.two_pow_pos _
  have steps_lt : (e + 2 ^ (ps.D - ps.B - 1)) / 2 ^ (ps.D - ps.B) < 2 ^ ps.B := by
    rw [Nat.div_lt_iff_lt_mul pos, Nat.mul_comm, ← two_pow_D_eq_step_mul]
    omega
  have steps_pos : 0 < (e + 2 ^ (ps.D - ps.B - 1)) / 2 ^ (ps.D - ps.B) :=
    Nat.div_pos (by omega) pos
  rw [decodeEntry_of_B_lt_D hlt, Nat.mod_eq_of_lt steps_lt] at h
  omega

/-- The residue of a signed number: itself, or `2^D` more (00_scope.md R14). -/
theorem emod_toNat_signed {d : Int} {q : Nat} (lo : -(q : Int) ≤ d) (hi : d < q) :
    (d % (q : Int)).toNat = if 0 ≤ d then d.toNat else (d + q).toNat := by
  split
  case isTrue nonneg => rw [Int.emod_eq_of_lt nonneg hi]
  case isFalse neg => rw [← Int.add_emod_right, Int.emod_eq_of_lt (by omega) (by omega)]

/-- For `B < D` the noise `d` rounds to 0 exactly in the interval `[-h, h - 1]`. -/
theorem decodeEntry_noise_eq_zero_iff (hlt : ps.B < ps.D) {d : Int}
    (lo : -(2 ^ (ps.D - 1) : Nat) ≤ d) (hi : d < (2 ^ (ps.D - 1) : Nat)) :
    decodeEntry ps (d % (2 ^ ps.D : Nat)).toNat = 0 ↔
      -(2 ^ (ps.D - ps.B - 1) : Nat) ≤ d ∧ d ≤ (2 ^ (ps.D - ps.B - 1) : Nat) - 1 := by
  have ring_size : 2 ^ ps.D = 2 * 2 ^ (ps.D - 1) := by
    rw [← Nat.pow_succ', Nat.succ_eq_add_one, Nat.sub_add_cancel (ps_D_pos ps)]
  have half_step_le : 2 ^ (ps.D - ps.B - 1) ≤ 2 ^ (ps.D - 1) :=
    Nat.pow_le_pow_right (by omega) (by omega)
  have residue := emod_toNat_signed (d := d) (q := 2 ^ ps.D) (by omega) (by omega)
  have pos := Nat.two_pow_pos (ps.D - 1)
  have inRing : (d % (2 ^ ps.D : Nat)).toNat < 2 ^ ps.D := by
    rw [residue]; split <;> omega
  rw [decodeEntry_eq_zero_iff hlt inRing, residue]
  split <;> omega

/-- For `B = D` only the noise 0 rounds to 0. -/
theorem decodeEntry_noise_eq_zero_iff_of_eq (heq : ps.B = ps.D) {d : Int}
    (lo : -(2 ^ (ps.D - 1) : Nat) ≤ d) (hi : d < (2 ^ (ps.D - 1) : Nat)) :
    decodeEntry ps (d % (2 ^ ps.D : Nat)).toNat = 0 ↔ d = 0 := by
  have half_lt : 2 ^ (ps.D - 1) < 2 ^ ps.D :=
    Nat.pow_lt_pow_right (by omega) (Nat.sub_one_lt (by have := ps_D_pos ps; omega))
  have residue := emod_toNat_signed (d := d) (q := 2 ^ ps.D) (by omega) (by omega)
  have inRing : (d % (2 ^ ps.D : Nat)).toNat < 2 ^ ps.D := by
    rw [residue]; split <;> omega
  rw [decodeEntry_of_B_eq_D heq inRing, residue]
  split <;> omega

/-- Half a step of noise rounds up to one step. -/
theorem decodeEntry_half_step (hlt : ps.B < ps.D) :
    decodeEntry ps (((2 ^ (ps.D - ps.B - 1) : Nat) : Int) % (2 ^ ps.D : Nat)).toNat =
      1 % 2 ^ ps.B := by
  have step := step_eq_two_mul_half hlt
  have half_lt : 2 ^ (ps.D - ps.B - 1) < 2 ^ (ps.D - ps.B) := by
    have := Nat.two_pow_pos (ps.D - ps.B - 1)
    omega
  rw [← Int.natCast_emod, Int.toNat_natCast, decodeEntry_mod,
    decodeEntry_tie hlt (Nat.mod_eq_of_lt half_lt), Nat.div_eq_of_lt half_lt, Nat.zero_add]

/-- Settles O21: the value passes through the rounding, so all that counts is whether the noise alone
rounds to 0, or to 1 at the tie. -/
theorem decodeMarginIsExact : Obligations.DecodeMarginIsExact := by
  refine ⟨fun ps v d hlt hv lo hi => ⟨?_, ?_⟩, fun ps v d heq hv lo hi => ?_, fun e he => ?_⟩
  · rw [decodeEntry_int_mul_step_add, add_mod_eq_self_iff hv (decodeEntry_lt ps _),
      decodeEntry_noise_eq_zero_iff hlt lo hi]
  · rintro rfl
    rw [decodeEntry_int_mul_step_add, decodeEntry_half_step hlt, Nat.add_mod_mod]
  · have whole := decodeEntry_int_mul_step_add ps v d
    rw [heq, Nat.sub_self, Nat.pow_zero, Nat.mul_one] at whole
    rw [whole, ← heq, add_mod_eq_self_iff hv (decodeEntry_lt ps _), heq,
      decodeEntry_noise_eq_zero_iff_of_eq heq lo hi]
  · have hlt : ParamSet.frodo640.B < ParamSet.frodo640.D := by decide
    rw [decodeEntry_of_B_lt_D hlt]
    simp only [ParamSet.frodo640]
    omega

end Margin

end Sys2Proof.Machine

namespace Sys2Proof.Machine

/-! SUPPORT. The bits that `PACK` and `UNPACK` move, `PACK` after `UNPACK`, and the two commands at `B = D`
(42_pack_unpack.md R160 to R164, section 4; 41_encode_decode.md section 4). -/

section PackedBits
variable {ps : ParamSet} {r c : Nat}

/-- Settles O24: the length and range checks pass, and the stream written is `packedBit`, the entries of
the source bit by bit. -/
theorem packWritesTheEntriesBitByBit : Obligations.PackWritesTheEntriesBitByBit := by
  intro s addr len ma M wf hM hlen range
  exact exec_completes_bytes (i := .pack addr len ma) wf
    (packEffect_ok_iff.mpr ⟨M, hM, hlen, range, rfl⟩)

/-- The `D` stream bits of an entry are its low `D` bits, the first highest (R164). -/
theorem unpackMatrix_getLsbD (buf : List Byte) (hr : r ≤ 65535) (hc : c ≤ 65535) {i j : Nat}
    (hi : i < r) (hj : j < c) (b : Nat) : ((unpackMatrix ps.D r c buf).entry i j).getLsbD b =
      if b < ps.D then getbit buf (ps.D * (i * c + j) + (ps.D - 1 - b)) else false := by
  rw [← BitVec.testBit_toNat, (unpackMatrix_is ps buf hr hc).2 i j hi hj, testBit_bitsBe]
  split
  case isTrue low => rw [decide_eq_true low, Bool.true_and]
  case isFalse high => rw [decide_eq_false high, Bool.false_and]

/-- Settles O25: the dimensions, the length and the range check pass, and `unpackMatrix` takes the bits
of the buffer. -/
theorem unpackReadsTheEntriesBitByBit : Obligations.UnpackReadsTheEntriesBitByBit := by
  intro s md addr len n1 n2 h1 h1' h2 h2' hlen range
  obtain ⟨t, ends, completed⟩ := exec_completes_matrix (i := .unpack md addr len n1 n2)
    (unpackEffect_ok_iff.mpr ⟨⟨⟨h1, h1'⟩, ⟨h2, h2'⟩⟩, hlen, range, rfl⟩)
  obtain ⟨shape, -⟩ := unpackMatrix_is s.cfg.ps
    (s.input addr (packedBytes s.cfg.ps n1.toNat n2.toNat)) (toNat16_le n1) (toNat16_le n2)
  exact ⟨t, _, ends, completed, shape, fun i j b hi hj _ =>
    unpackMatrix_getLsbD _ (toNat16_le n1) (toNat16_le n2) hi hj b⟩

/-- The packed stream of an unpacked matrix is the stream it came from, up to the last entry. -/
theorem packedBit_unpackMatrix (buf : List Byte) (hr : r ≤ 65535) (hc : c ≤ 65535) (p : Nat) :
    packedBit ps.D (unpackMatrix ps.D r c buf) p = (decide (p < ps.D * r * c) && getbit buf p) := by
  obtain ⟨⟨rows, cols, -⟩, -⟩ := unpackMatrix_is ps buf hr hc
  have hD := ps_D_pos ps
  rw [packedBit, rows, cols]
  split
  case isFalse outside => rw [decide_eq_false outside, Bool.false_and]
  case isTrue inside =>
    have entry_lt : p / ps.D < r * c := by
      rw [Nat.div_lt_iff_lt_mul hD]
      calc p < ps.D * r * c := inside
        _ = r * c * ps.D := by ring
    have hcpos : 0 < c := Nat.pos_of_ne_zero fun h0 => by simp [h0] at entry_lt
    have bit_lt : p % ps.D < ps.D := Nat.mod_lt _ hD
    have position : ps.D * (p / ps.D) + (ps.D - 1 - (ps.D - 1 - p % ps.D)) = p := by
      have := Nat.div_add_mod p ps.D
      omega
    rw [BitVec.testBit_toNat, unpackMatrix_getLsbD buf hr hc
      ((Nat.div_lt_iff_lt_mul hcpos).mpr entry_lt) (Nat.mod_lt _ hcpos), if_pos (by omega),
      Nat.div_add_mod', position, decide_eq_true inside, Bool.true_and]

/-- An unpacked matrix packs into as many bytes as it came from. -/
theorem packedBytes_unpackMatrix (buf : List Byte) (hr : r ≤ 65535) (hc : c ≤ 65535) :
    packedBytes ps (unpackMatrix ps.D r c buf).rows.toNat (unpackMatrix ps.D r c buf).cols.toNat =
      packedBytes ps r c := by
  obtain ⟨⟨rows, cols, -⟩, -⟩ := unpackMatrix_is ps buf hr hc
  rw [rows, cols]

/-- A byte string with its pad bits cleared is the string itself when they were clear. -/
theorem eq_iff_pad_clear {out buf : List Byte} {N bits : Nat} (hout : out.length = N)
    (hbuf : buf.length = N)
    (cleared : ∀ p, p < 8 * N → getbit out p = (decide (p < bits) && getbit buf p)) :
    out = buf ↔ ∀ p, bits ≤ p → p < 8 * N → getbit buf p = false := by
  constructor
  · rintro rfl p pad hp
    rw [cleared p hp, decide_eq_false (by omega), Bool.false_and]
  · intro clear
    refine bytes_ext (hout.trans hbuf.symm) fun p hp => ?_
    rw [hout] at hp
    rw [cleared p hp]
    by_cases pad : bits ≤ p
    · rw [clear p pad hp, Bool.and_false]
    · rw [decide_eq_true (by omega), Bool.true_and]

/-- Settles O27: `UNPACK` leaves memory alone, so what `PACK` writes is the string with its pad bits
cleared. -/
theorem packOfUnpackClearsThePadBits : Obligations.PackOfUnpackClearsThePadBits := by
  intro s md ain aout len n1 n2 wf h1 h1' h2 h2' hlen rangeIn rangeOut
  have hr := toNat16_le n1
  have hc := toNat16_le n2
  obtain ⟨s1, unpack, cfg1, dmem1, hM, -⟩ := exec_matrix_of_effect_ok
    (i := .unpack md ain len n1 n2)
    (unpackEffect_ok_iff.mpr ⟨⟨⟨h1, h1'⟩, ⟨h2, h2'⟩⟩, hlen.ge, rangeIn, rfl⟩)
  have size : packedBytes s.cfg.ps n1.toNat n2.toNat = len.toNat := hlen.symm
  rw [size] at hM
  obtain ⟨s2, pack, stream, ⟨err, -⟩, -⟩ := exec_completes_bytes (i := .pack aout len md)
    (by rwa [dmem1]) (packEffect_ok_iff.mpr ⟨_, hM,
      by rw [cfg1, packedBytes_unpackMatrix _ hr hc, size], cfg1 ▸ rangeOut, rfl⟩)
  have cleared : ∀ p, p < 8 * len.toNat → getbit (s2.dmem.readBytes aout.toNat len.toNat) p =
      (decide (p < s.cfg.ps.D * n1.toNat * n2.toNat) &&
        getbit (s.dmem.readBytes ain.toNat len.toNat) p) := by
    rw [cfg1, packedBytes_unpackMatrix _ hr hc, size] at stream
    exact fun p hp => (stream p hp).trans (packedBit_unpackMatrix _ hr hc p)
  exact ⟨s1, s2, unpack, pack, err, cleared,
    eq_iff_pad_clear (Memory.readBytes_length ..) (Memory.readBytes_length ..) cleared⟩

end PackedBits

section FullElements
variable {ps : ParamSet} (heq : ps.B = ps.D)
include heq

/-- At `B = D` the encoder scales by 1: it builds what the unpacker builds. -/
theorem encodeMatrix_eq_unpackMatrix (k : List Byte) :
    encodeMatrix ps k = unpackMatrix ps.D ps.m ps.nCols k := by
  simp only [encodeMatrix, unpackMatrix, heq, Nat.sub_self, Nat.pow_zero, Nat.mul_one]

/-- At `B = D` the decoder rounds nothing: it writes what the packer writes. -/
theorem decodeMatrix_eq_packMatrix {M : Matrix} (legal : M.Legal ps) (rows : M.rows.toNat = ps.m)
    (cols : M.cols.toNat = ps.nCols) : decodeMatrix ps M = packMatrix ps M := by
  rw [decodeMatrix, packMatrix, plainBytes, packedBytes, rows, cols, heq]
  congr 1
  funext p
  rw [decodedBit, packedBit, rows, cols, heq, decodeEntry_of_B_eq_D heq (entry_lt legal _ _)]

end FullElements

section LengthChecked
variable {s : State} {mr : MReg} {addr len : Word}

/-! The four commands with a right length and shape: the range check is left, and then the write. -/

theorem effectOf_enc_of_length (hlen : len.toNat = plainBytes s.cfg.ps) :
    effectOf (.enc mr addr len) s = (s.checkRange addr len >>= fun _ =>
      .ok (.matrix mr (encodeMatrix s.cfg.ps (s.input addr (plainBytes s.cfg.ps))))) :=
  bind_of_ok (check_ok_of_true (decide_eq_true hlen) _) _

theorem effectOf_unpack_of_length {n1 n2 : BitVec 16} (h1 : 1 ≤ n1.toNat ∧ n1.toNat ≤ s.cfg.ps.n)
    (h2 : 1 ≤ n2.toNat ∧ n2.toNat ≤ s.cfg.ps.n)
    (hlen : packedBytes s.cfg.ps n1.toNat n2.toNat ≤ len.toNat) :
    effectOf (.unpack mr addr len n1 n2) s = (s.checkRange addr len >>= fun _ =>
      .ok (.matrix mr (unpackMatrix s.cfg.ps.D n1.toNat n2.toNat
        (s.input addr (packedBytes s.cfg.ps n1.toNat n2.toNat))))) :=
  (bind_of_ok (checkDims_ok_of_bounds h1 h2) _).trans <|
    bind_of_ok (check_ok_of_true (decide_eq_true hlen) _) _

variable {M : Matrix} (hM : s.matrixAt mr = some M)
include hM

theorem effectOf_dec_of_length (hr : M.rows.toNat = s.cfg.ps.m) (hc : M.cols.toNat = s.cfg.ps.nCols)
    (hlen : len.toNat = plainBytes s.cfg.ps) :
    effectOf (.dec addr len mr) s = (s.checkRange addr len >>= fun _ =>
      .ok (.bytes addr.toNat (decodeMatrix s.cfg.ps M))) :=
  (bind_of_ok (source_of_some hM) _).trans <|
    (bind_of_ok (check_ok_of_true (by simp [hr, hc]) _) _).trans <|
    bind_of_ok (check_ok_of_true (decide_eq_true hlen) _) _

theorem effectOf_pack_of_length
    (hlen : packedBytes s.cfg.ps M.rows.toNat M.cols.toNat ≤ len.toNat) :
    effectOf (.pack addr len mr) s = (s.checkRange addr len >>= fun _ =>
      .ok (.bytes addr.toNat (packMatrix s.cfg.ps M))) :=
  (bind_of_ok (source_of_some hM) _).trans <|
    bind_of_ok (check_ok_of_true (decide_eq_true hlen) _) _

end LengthChecked

/-- Settles O28: past the checks that the hypotheses pass, each pair of commands has the range check left
and then the same write. -/
theorem encodeIsUnpackWhenBitsFillTheElement :
    Obligations.EncodeIsUnpackWhenBitsFillTheElement := by
  intro s mr addr len heq hlen
  have hn := ps_n_le s.cfg.ps
  have hm := ps_m_le s.cfg.ps
  have hc := ps_nCols_le s.cfg.ps
  have sameBytes : plainBytes s.cfg.ps = packedBytes s.cfg.ps s.cfg.ps.m s.cfg.ps.nCols := by
    rw [plainBytes, packedBytes, heq]
  have hlen : len.toNat = plainBytes s.cfg.ps := hlen
  constructor
  · have rows : (BitVec.ofNat 16 s.cfg.ps.m).toNat = s.cfg.ps.m := by
      rw [BitVec.toNat_ofNat]; omega
    have cols : (BitVec.ofNat 16 s.cfg.ps.nCols).toNat = s.cfg.ps.nCols := by
      rw [BitVec.toNat_ofNat]; omega
    rw [exec_eq_finish, exec_eq_finish, effectOf_enc_of_length hlen, effectOf_unpack_of_length
      (by rw [rows]; exact ⟨ps_m_pos _, hm⟩) (by rw [cols]; exact ⟨ps_nCols_pos _, hc⟩)
      (by rw [rows, cols, hlen, sameBytes]),
      rows, cols, encodeMatrix_eq_unpackMatrix heq, sameBytes]
  · intro M hM legal rows cols
    rw [exec_eq_finish, exec_eq_finish, effectOf_dec_of_length hM rows cols hlen,
      effectOf_pack_of_length hM (by rw [rows, cols, hlen, sameBytes]),
      decodeMatrix_eq_packMatrix heq legal rows cols]

end Sys2Proof.Machine

namespace Sys2Proof.Machine

/-! SUPPORT. The XOF output, and what `GEN` and `SAMP` write (43_gen_xof.md R182, R189, R191;
44_sample.md R212, R213). -/

section XofOutput

/-- More squeezed blocks continue fewer: a block depends on those before it alone (R191). -/
theorem squeeze_add (r k m : Nat) (s : List Lane) :
    ∃ later, squeeze r (k + m) s = squeeze r k s ++ later := by
  induction k generalizing s with
  | zero => exact ⟨_, rfl⟩
  | succ k ih =>
    obtain ⟨later, hlater⟩ := ih (keccakF s)
    exact ⟨later, by rw [Nat.succ_add, squeeze, squeeze, hlater, List.append_assoc]⟩

/-- The blocks that `L` bytes take hold at least `L` bytes. -/
theorem le_blocks_mul {r : Nat} (hr : 1 ≤ r) (L : Nat) : L ≤ (L + r - 1) / r * r := by
  have := Nat.div_add_mod' (L + r - 1) r
  have := Nat.mod_lt (L + r - 1) hr
  omega

/-- Settles O29: the blocks squeezed for `L` bytes hold them, and are the beginning of those squeezed for
`L'` bytes. -/
theorem xofOutputHasItsLengthAndExtends : Obligations.XofOutputHasItsLengthAndExtends := by
  intro x msg L L' hle
  obtain ⟨hr, hr'⟩ := xofRate_bounds x
  have enough := le_blocks_mul hr L
  rw [← squeeze_length hr' _ (absorb_length (xofRate x) msg)] at enough
  have moreBlocks : (L + xofRate x - 1) / xofRate x ≤ (L' + xofRate x - 1) / xofRate x :=
    Nat.div_le_div_right (by omega)
  obtain ⟨m, hm⟩ := Nat.exists_eq_add_of_le moreBlocks
  obtain ⟨later, hlater⟩ :=
    squeeze_add (xofRate x) ((L + xofRate x - 1) / xofRate x) m (absorb (xofRate x) msg)
  refine ⟨List.length_take_of_le enough, ?_⟩
  simp only [xofBytes]
  rw [hm, hlater, List.take_take, Nat.min_eq_left hle, List.take_append_of_le_length enough]

end XofOutput

section GenSamp

/-- Settles O30: the length and range checks pass, and a row's message is its big-endian index before the
seed. -/
theorem genExpandsTheSeedRowByRow : Obligations.GenExpandsTheSeedRowByRow := by
  intro s md addr len hlen range
  obtain ⟨t, ends, completed⟩ := exec_completes_matrix (i := .gen md addr len)
    (genEffect_ok_iff.mpr ⟨hlen, range, rfl⟩)
  refine ⟨t, _, ends, completed, (genMatrix_is s.cfg.ps _).congr fun i j _ _ => ?_⟩
  have lowByte : BitVec.ofNat 8 (i % 256) = BitVec.ofNat 8 i :=
    BitVec.eq_of_toNat_eq (by simp)
  simp only [rowOutput, be16, fromBe16, lowByte, State.input, hlen, seedBytes]

/-- Settles O32: the residue in `[-2^(D-1), 2^(D-1))` is the balanced remainder. -/
theorem sampleFnStaysInItsRange : Obligations.SampleFnStaysInItsRange := by
  intro c w
  have ring_size : 2 ^ c.ps.D = 2 * 2 ^ (c.ps.D - 1) := by
    rw [← Nat.pow_succ', Nat.succ_eq_add_one, Nat.sub_add_cancel (ps_D_pos c.ps)]
  have pos : 0 < 2 ^ c.ps.D := Nat.two_pow_pos _
  have lower := Int.le_bmod (x := (c.sampleWord w).toNat) pos
  have upper := Int.bmod_lt (x := (c.sampleWord w).toNat) pos
  rw [Config.sampleFn, signedResidue]
  omega

/-- Settles O33: the dimensions, the length and the range check pass, and the word of entry `(i, j)` is
the little-endian byte pair at `2(i·n2 + j)`. -/
theorem sampWritesTheResiduesOfTheSamples : Obligations.SampWritesTheResiduesOfTheSamples := by
  intro s md addr len n1 n2 h1 h1' h2 h2' hlen range
  obtain ⟨t, ends, completed⟩ := exec_completes_matrix (i := .samp md addr len n1 n2)
    (sampEffect_ok_iff.mpr ⟨⟨⟨h1, h1'⟩, ⟨h2, h2'⟩⟩, hlen, range, rfl⟩)
  refine ⟨t, _, ends, completed, (sampleMatrix_is s.cfg.ps _ _ (toNat16_le n1)
    (toNat16_le n2)).congr fun i j hi hj => ?_⟩
  have inside : 2 * (i * n2.toNat + j) + 1 < sampleBytes n1.toNat n2.toNat := by
    have := rowMajor_lt hi hj
    rw [sampleBytes, Nat.mul_assoc]
    omega
  rw [sampleWordAt_input s addr inside, fromLe16, Nat.mul_comm _ 256]

end GenSamp

end Sys2Proof.Machine

namespace Sys2Proof.Machine

/-! SUPPORT. The errors that the checks of a command raise (60_exceptions.md R231, R238, R239). -/

section WrongLength

theorem check_error_of_false {c : Bool} (h : c = false) (e : ErrorCode) : check c e = .error e :=
  check_error_iff.mpr ⟨h, rfl⟩

/-- A command stops at a check that failed. -/
theorem bind_of_error {α β : Type} {x : Except ErrorCode α} {e : ErrorCode} (h : x = .error e)
    (f : α → Except ErrorCode β) : (x >>= f) = .error e := by
  rw [h, error_bind]

/-- A command whose first failing check is `e` ends with the error completion of `e`. -/
theorem exec_raises {i : Instr} {s : State} {e : ErrorCode} (h : effectOf i s = .error e) :
    ∃ t, exec i s = .next t ∧ ErrorCompletion e s t :=
  exec_eq_finish i s ▸ finish_error h

/-- Settles O37, command by command: the checks before the failing one pass, and the range check comes
after it. -/
theorem wrongLengthEndsWithItsError : Obligations.WrongLengthEndsWithItsError := by
  intro s mr addr len n1 n2 M
  refine ⟨fun wrong => exec_raises ?_, fun hM wrong => exec_raises ?_,
    fun hM rows cols wrong => exec_raises ?_, fun hM short => exec_raises ?_,
    fun h1 h2 short => exec_raises ?_, fun wrong => exec_raises ?_,
    fun h1 h2 wrong => exec_raises ?_⟩
  · exact bind_of_error (check_error_of_false (decide_eq_false wrong) _) _
  · exact (bind_of_ok (source_of_some hM) _).trans <|
      bind_of_error (check_error_of_false (by simpa using wrong) _) _
  · exact (bind_of_ok (source_of_some hM) _).trans <|
      (bind_of_ok (check_ok_of_true (by simp [rows, cols]) _) _).trans <|
      bind_of_error (check_error_of_false (decide_eq_false wrong) _) _
  · exact (bind_of_ok (source_of_some hM) _).trans <|
      bind_of_error (check_error_of_false (decide_eq_false (not_le.mpr short)) _) _
  · exact (bind_of_ok (checkDims_ok_of_bounds h1 h2) _).trans <|
      bind_of_error (check_error_of_false (decide_eq_false (not_le.mpr short)) _) _
  · exact bind_of_error (check_error_of_false (decide_eq_false wrong) _) _
  · exact (bind_of_ok (checkDims_ok_of_bounds h1 h2) _).trans <|
      bind_of_error (check_error_of_false (decide_eq_false wrong) _) _

end WrongLength

section PossibleCodes

/-- Every error of `x` has its code in the list. -/
def RaisesOnly {α : Type} (codes : List Nat) (x : Except ErrorCode α) : Prop :=
  ∀ e, x = .error e → e.code.toNat ∈ codes

variable {α β : Type} {codes : List Nat} {s : State}

theorem RaisesOnly.bind {x : Except ErrorCode α} {f : α → Except ErrorCode β}
    (hx : RaisesOnly codes x) (hf : ∀ a, RaisesOnly codes (f a)) : RaisesOnly codes (x >>= f) := by
  intro e h
  obtain h | ⟨a, -, h⟩ := bind_error_iff.mp h
  · exact hx e h
  · exact hf a e h

theorem raisesOnly_ok (a : α) : RaisesOnly codes (.ok a : Except ErrorCode α) :=
  fun _ h => by cases h

theorem raisesOnly_check (c : Bool) {e : ErrorCode} (h : e.code.toNat ∈ codes) :
    RaisesOnly codes (check c e) := by
  intro e' he
  obtain ⟨-, rfl⟩ := check_error_iff.mp he
  exact h

theorem raisesOnly_source (r : MReg) (h : 6 ∈ codes) : RaisesOnly codes (s.source r) := by
  intro e he
  cases hM : s.matrixAt r with
  | some M => rw [source_of_some hM] at he; cases he
  | none => rw [source_of_none hM] at he; cases he; exact h

theorem raisesOnly_checkDims (n1 n2 : BitVec 16) (h : 5 ∈ codes) :
    RaisesOnly codes (s.checkDims n1 n2) := raisesOnly_check _ h

theorem raisesOnly_checkRange (addr len : Word) (h : 7 ∈ codes) :
    RaisesOnly codes (s.checkRange addr len) := raisesOnly_check _ h

/-- The checks of each command raise only the errors of its row of the table (60_exceptions.md R239). -/
theorem effectOf_raisesOnly (i : Instr) (s : State) :
    RaisesOnly (possibleErrors i.op.byte.toNat) (effectOf i s) := by
  cases i <;> dsimp only [Instr.op]
  case mul | add | sub =>
    exact (raisesOnly_source _ (by decide)).bind fun _ => (raisesOnly_source _ (by decide)).bind
      fun _ => (raisesOnly_check _ (by decide)).bind fun _ => raisesOnly_ok _
  case mac =>
    exact (raisesOnly_source _ (by decide)).bind fun _ => (raisesOnly_source _ (by decide)).bind
      fun _ => (raisesOnly_source _ (by decide)).bind fun _ =>
      (raisesOnly_check _ (by decide)).bind fun _ => raisesOnly_ok _
  case enc | gen =>
    exact (raisesOnly_check _ (by decide)).bind fun _ =>
      (raisesOnly_checkRange _ _ (by decide)).bind fun _ => raisesOnly_ok _
  case dec =>
    exact (raisesOnly_source _ (by decide)).bind fun _ => (raisesOnly_check _ (by decide)).bind
      fun _ => (raisesOnly_check _ (by decide)).bind fun _ =>
      (raisesOnly_checkRange _ _ (by decide)).bind fun _ => raisesOnly_ok _
  case pack =>
    exact (raisesOnly_source _ (by decide)).bind fun _ => (raisesOnly_check _ (by decide)).bind
      fun _ => (raisesOnly_checkRange _ _ (by decide)).bind fun _ => raisesOnly_ok _
  case unpack | samp =>
    exact (raisesOnly_checkDims _ _ (by decide)).bind fun _ =>
      (raisesOnly_check _ (by decide)).bind fun _ =>
      (raisesOnly_checkRange _ _ (by decide)).bind fun _ => raisesOnly_ok _
  case clr => exact raisesOnly_ok _

/-- Any descriptor can be illegal. -/
theorem five_mem_possibleErrors (n : Nat) : 5 ∈ possibleErrors n := by
  unfold possibleErrors
  split <;> decide

/-- Every command can complete. -/
theorem zero_mem_possibleErrors (o : Opcode) : 0 ∈ possibleErrors o.byte.toNat := by
  cases o <;> decide

/-- An accepted descriptor has the opcode byte of its command. -/
theorem opcode_of_decode_ok {d : Descriptor} {i : Instr} (h : decode d = .ok i) :
    d.w0.toNat / 2 ^ 24 = i.op.byte.toNat := by
  obtain ⟨hop, -⟩ := i.fields_legal
  rw [← encodeOfDecodeIsTheDescriptor d i h, ← Descriptor.opcode_toNat, encode,
    Fields.fields_descriptor, hop]

/-- Settles O41: a rejected descriptor ends with code 5, an accepted one with an error of its command's
checks or with 0. -/
theorem commandEndsWithAPossibleCode : Obligations.CommandEndsWithAPossibleCode := by
  intro s t d h
  cases hd : decode d with
  | rejected e =>
    rw [issue_of_decode_rejected hd] at h
    cases h
    exact five_mem_possibleErrors _
  | ok i =>
    rw [issue_of_decode_ok hd] at h
    rw [opcode_of_decode_ok hd]
    obtain ⟨e, he, rfl⟩ | ⟨w, -, rfl⟩ := exec_cases h
    · exact effectOf_raisesOnly i s e he
    · exact zero_mem_possibleErrors i.op

end PossibleCodes

end Sys2Proof.Machine

namespace Sys2Proof.Machine

/-! SUPPORT. What the host can reach of the matrix registers: their shapes, and no entry (10_state.md R27,
R40). -/

section HostSide
variable {s t t' : State} {m : MatrixRegs}

/-- `MRSHAPE` shows validity and shape alone (R40). -/
theorem mrShape_congr {M N : Option Matrix} (h : SameShape M N) : mrShape M = mrShape N := by
  cases M <;> cases N
  case some.some M N =>
    obtain ⟨rows, cols⟩ := h
    rw [mrShape, mrShape, rows, cols]
  case none.none => rfl
  all_goals exact h.elim

/-- Registers of equal shapes read alike in the control window. -/
theorem readReg_congr_shapes (h : ∀ r, SameShape (s.mr.get r) (m.get r)) (r : Nat) :
    State.readReg { s with mr := m } r = s.readReg r := by
  by_cases hr : 0x10 ≤ r ∧ r < 0x18
  · obtain ⟨q, hq⟩ := exists_mreg_number (k := r - 0x10) (by omega)
    obtain rfl : r = 0x10 + q.toBits.toNat := by omega
    rw [readReg_mrShape, readReg_mrShape]
    exact (mrShape_congr (h q)).symm
  · unfold State.readReg
    split <;> simp at hr ⊢

/-- A move that issues no command keeps every matrix register, or is a reset and invalidates all. -/
theorem Served.matricesKept_or_reset {a : HostAction} (served : Served s a t)
    (noCommand : ∀ w, a ≠ .writeReg 0x01 w) :
    MatricesKept s t ∨ ∃ c, a = .reset c ∧ ∀ r, t.matrixAt r = none := by
  cases served with
  | issue => exact absurd rfl (noCommand _)
  | reset c => exact .inr ⟨c, rfl, State.resetMove_matrixAt s c⟩
  | _ => exact .inl fun _ => rfl

/-- A move that issues no command answers alike, and leaves `STATUS` and memory alike, on registers of
equal shapes. -/
theorem Served.congr_shapes {a : HostAction} (h : ∀ r, SameShape (s.mr.get r) (m.get r))
    (served : Served s a t) (served' : Served { s with mr := m } a t')
    (noCommand : ∀ w, a ≠ .writeReg 0x01 w) :
    t.reply = t'.reply ∧ t.err = t'.err ∧ t.dmem = t'.dmem := by
  cases served with
  | issue => exact absurd rfl (noCommand _)
  | readReg r =>
    cases served'
    exact ⟨congrArg HostReply.word (readReg_congr_shapes h r).symm, rfl, rfl⟩
  | ignored w other =>
    cases served' with
    | issue => exact absurd rfl (noCommand _)
    | ignored => exact ⟨rfl, rfl, rfl⟩
    | _ => exact absurd other (by simp)
  | writeCmd1 | writeCmd2 | writeCmd3 =>
    cases served' with
    | ignored w other => exact absurd other (by simp)
    | _ => exact ⟨rfl, rfl, rfl⟩
  | _ => cases served'; exact ⟨rfl, rfl, rfl⟩

/-- Settles O49: the two states serve the same move, and a move that issues no command meets the matrix
registers only in the shapes that `MRSHAPE` shows. -/
theorem hostCannotReachTheEntries : Obligations.HostCannotReachTheEntries := by
  intro s s' t t' a rest hs' shapes hhost noCommand h h'
  have served := move_served (step_of_host_cons hhost ▸ h)
  have hhost' : s'.host = a :: rest := by rw [hs']; exact hhost
  have served' := move_served (step_of_host_cons hhost' ▸ h')
  rw [hs'] at served'
  obtain ⟨reply, err, dmem⟩ := Served.congr_shapes (s := s.takeMove rest) (m := s'.mr) shapes served
    served' noCommand
  exact ⟨reply, err, fun b => by rw [dmem], served.matricesKept_or_reset noCommand⟩

end HostSide

/-! SUPPORT. What a command depends on (10_state.md R26, R45; 70_reset_and_hazards.md R272). -/

section Dependence
variable {s s' t t' : State} {i : Instr}

/-- The bytes a command reads make up its input buffer. -/
theorem input_congr {addr : Word} {N : Nat}
    (h : ∀ k, k < N → s.dmem.read (addr.toNat + k) = s'.dmem.read (addr.toNat + k)) :
    s.input addr N = s'.input addr N := Memory.readBytes_congr h

/-- What a command checks and writes depends on the configuration, its sources and the bytes it reads. -/
theorem effectOf_congr (sameCfg : s.cfg = s'.cfg)
    (sameSources : ∀ r ∈ sources i, s.matrixAt r = s'.matrixAt r)
    (sameBytes : ∀ k, k < (inputRange s.cfg.ps i).2 →
      s.dmem.read ((inputRange s.cfg.ps i).1 + k) = s'.dmem.read ((inputRange s.cfg.ps i).1 + k)) :
    effectOf i s = effectOf i s' := by
  have range (addr len : Word) : s.checkRange addr len = s'.checkRange addr len := by
    rw [State.checkRange, State.checkRange, sameCfg]
  have dims (n1 n2 : BitVec 16) : s.checkDims n1 n2 = s'.checkDims n1 n2 := by
    rw [State.checkDims, State.checkDims, sameCfg]
  cases i <;> dsimp only [inputRange] at sameBytes
  case mul md ma mb | add md ma mb | sub md ma mb =>
    exact arithmetic_effect_congr (md := md) (ma := ma) (mb := mb) (me := ma) (by simp)
      (by rw [sameCfg]) sameSources
  case mac md ma mb me =>
    exact arithmetic_effect_congr (md := md) (ma := ma) (mb := mb) (me := me) (by simp)
      (by rw [sameCfg]) sameSources
  case dec addr len ma =>
    simp only [effectOf, decEffect, source_congr (sameSources ma (.head _)), range, sameCfg]
  case pack addr len ma =>
    simp only [effectOf, packEffect, source_congr (sameSources ma (.head _)), range, sameCfg]
  case enc md addr len =>
    simp only [effectOf, encEffect, ← sameCfg, range, input_congr sameBytes]
  case gen md addr len =>
    simp only [effectOf, genEffect, ← sameCfg, range, input_congr sameBytes]
  case unpack md addr len n1 n2 =>
    simp only [effectOf, unpackEffect, ← sameCfg, dims, range, input_congr sameBytes]
  case samp md addr len n1 n2 =>
    simp only [effectOf, sampEffect, ← sameCfg, dims, range, input_congr sameBytes]
  case clr md => rfl

/-- The matrix register a write sets or invalidates. -/
def Effect.register : Effect → Option MReg
  | .matrix d _ => some d
  | .bytes _ _ => none
  | .invalidate d => some d

/-- The bytes of `DMEM` a write sets, as an address and a length. -/
def Effect.range : Effect → Nat × Nat
  | .bytes addr bs => (addr, bs.length)
  | .matrix _ _ | .invalidate _ => (0, 0)

/-- A command writes the register or the bytes that `destination` and `outputRange` name (20_memory.md
R67, 10_state.md R26). -/
theorem effectOf_writes {w : Effect} (h : effectOf i s = .ok w) :
    w.register = destination i ∧ w.range = outputRange s i := by
  cases i with
  | mul => obtain ⟨_, _, -, -, -, rfl⟩ := mulEffect_ok_iff.mp h; exact ⟨rfl, rfl⟩
  | mac => obtain ⟨_, _, _, -, -, -, -, rfl⟩ := macEffect_ok_iff.mp h; exact ⟨rfl, rfl⟩
  | add => obtain ⟨_, _, -, -, -, rfl⟩ := addEffect_ok_iff.mp h; exact ⟨rfl, rfl⟩
  | sub => obtain ⟨_, _, -, -, -, rfl⟩ := subEffect_ok_iff.mp h; exact ⟨rfl, rfl⟩
  | enc => obtain ⟨-, -, rfl⟩ := encEffect_ok_iff.mp h; exact ⟨rfl, rfl⟩
  | dec =>
    obtain ⟨M, -, -, -, -, rfl⟩ := decEffect_ok_iff.mp h
    exact ⟨rfl, by rw [Effect.range, decodeMatrix, putbits_length, outputRange]⟩
  | pack =>
    obtain ⟨M, hM, -, -, rfl⟩ := packEffect_ok_iff.mp h
    exact ⟨rfl, by simp only [Effect.range, packMatrix_length, outputRange, hM]⟩
  | unpack => obtain ⟨-, -, -, rfl⟩ := unpackEffect_ok_iff.mp h; exact ⟨rfl, rfl⟩
  | gen => obtain ⟨-, -, rfl⟩ := genEffect_ok_iff.mp h; exact ⟨rfl, rfl⟩
  | samp => obtain ⟨-, -, -, rfl⟩ := sampEffect_ok_iff.mp h; exact ⟨rfl, rfl⟩
  | clr => cases h; exact ⟨rfl, rfl⟩

/-- A register after a write: what the write says of it, or what it held. -/
theorem apply_matrixAt_congr (w : Effect) {r : MReg}
    (h : w.register = some r ∨ s.matrixAt r = s'.matrixAt r) :
    (s.apply w).matrixAt r = (s'.apply w).matrixAt r := by
  cases w with
  | matrix d M =>
    rw [State.apply_matrix, State.apply_matrix, State.writeMatrix_matrixAt,
      State.writeMatrix_matrixAt]
    split
    case isTrue => rfl
    case isFalse other => exact h.resolve_left fun same => other (Option.some.inj same).symm
  | bytes addr bs => exact h.resolve_left (by simp [Effect.register])
  | invalidate d =>
    rw [State.apply, State.apply, State.invalidate_matrixAt, State.invalidate_matrixAt]
    split
    case isTrue => rfl
    case isFalse other => exact h.resolve_left fun same => other (Option.some.inj same).symm

/-- A byte after a write: what the write says of it, or what it held. -/
theorem apply_read_congr (wf : s.dmem.wf = true) (wf' : s'.dmem.wf = true) (w : Effect) {a : Nat}
    (h : (w.range.1 ≤ a ∧ a < w.range.1 + w.range.2) ∨ s.dmem.read a = s'.dmem.read a) :
    (s.apply w).dmem.read a = (s'.apply w).dmem.read a := by
  cases w with
  | matrix d M => exact h.resolve_left (by simp [Effect.range])
  | invalidate d => exact h.resolve_left (by simp [Effect.range])
  | bytes addr bs =>
    by_cases inside : addr ≤ a ∧ a < addr + bs.length
    · obtain ⟨k, rfl⟩ := Nat.exists_eq_add_of_le inside.1
      have hk : k < bs.length := by omega
      rw [State.apply, State.apply, State.storeBytes_dmem, State.storeBytes_dmem,
        Memory.read_writeBytes_inside wf addr hk, Memory.read_writeBytes_inside wf' addr hk]
    · rw [State.apply, State.apply, State.storeBytes_dmem, State.storeBytes_dmem,
        Memory.read_writeBytes_outside _ (by omega), Memory.read_writeBytes_outside _ (by omega)]
      exact h.resolve_left inside

/-- Settles O56: the two runs have the same first failing check or the same one write. -/
theorem commandDependsOnlyOnWhatItReads : Obligations.CommandDependsOnlyOnWhatItReads := by
  intro i s s' t t' sameCfg wf wf' sameSources sameBytes h h'
  have same := effectOf_congr sameCfg sameSources sameBytes
  obtain ⟨e, he, rfl⟩ | ⟨w, hw, rfl⟩ := exec_cases h
  · obtain rfl : t' = s'.raise e := by
      rw [exec_eq_finish, ← same, he] at h'
      exact (by simpa [State.finish] using h' : s'.raise e = t').symm
    exact ⟨rfl, fun _ => id, fun _ => id, fun sticky => congrArg (stickyAfter · e) sticky, id, id,
      id, fun h0 => absurd h0 (code_ne_zero e)⟩
  · obtain rfl : t' = (s'.apply w).complete := by
      rw [exec_of_effect_ok (same.symm.trans hw)] at h'
      cases h'
      rfl
    obtain ⟨register, range⟩ := effectOf_writes hw
    refine ⟨rfl, fun r hr => apply_matrixAt_congr w (.inr hr),
      fun a ha => apply_read_congr wf wf' w (.inr ha), by simp, by simp, by simp, by simp,
      fun _ => ⟨fun r hr => apply_matrixAt_congr w (.inl (register.trans hr)),
        fun k hk => apply_read_congr wf wf' w (.inl ?_)⟩⟩
    rw [range]
    omega

end Dependence

end Sys2Proof.Machine

namespace Sys2Proof.Machine

/-! SUPPORT. Issuing a command (10_state.md R36; 30_encoding.md R92, R102), `CLR` (45_control.md R226), and
the moves of the host (20_memory.md R68). -/

section Issuing

/-- A descriptor that the decoder rejects, or whose dimensions are outside the limits, ends with
`IllegalCommand` (60_exceptions.md R234). -/
theorem issue_unaccepted (s : State) {d : Descriptor}
    (h : ∀ i, decode d = .ok i → ¬ i.wellFormed s.cfg.ps = true) :
    ∃ t, s.issue d = .next t ∧ t.err = 5 := by
  cases hd : decode d with
  | rejected e => exact ⟨_, issue_of_decode_rejected hd, rfl⟩
  | ok i =>
    obtain ⟨t, ht, ⟨herr, -⟩, -⟩ := exec_of_not_wellFormed (h i hd)
    exact ⟨t, (issue_of_decode_ok hd).trans ht, herr⟩

/-- Settles O4: the decoder evaluates each of the words; of the five illegal ones it rejects four, and the
last is an `UNPACK` with `n1 = 0`. -/
theorem workedEncodingsDecode : Obligations.WorkedEncodingsDecode := by
  refine ⟨rfl, rfl, rfl, rfl, rfl, rfl, rfl, rfl, rfl, rfl, rfl, fun s d hd =>
    issue_unaccepted s fun i hi => ?_⟩
  simp only [List.mem_cons, List.not_mem_nil, or_false] at hd
  obtain rfl | rfl | rfl | rfl | rfl := hd <;> cases hi
  exact Bool.false_ne_true

/-- Settles O5: the move is the write of `CMD0`, and taking it off changes only the host's side. -/
theorem stepRunsTheIssuedCommand : Obligations.StepRunsTheIssuedCommand := by
  intro s w rest i hhost hd
  exact ⟨(step_writeReg hhost).trans (issue_of_decode_ok hd), rfl, rfl, fun _ => rfl, fun _ => rfl,
    rfl, rfl, rfl, rfl, rfl, rfl⟩

/-- Settles O35: `CLR` has no check, and its one write invalidates its register. -/
theorem clrInvalidatesOneRegister : Obligations.ClrInvalidatesOneRegister := by
  intro s md
  have gone : (s.invalidate md).complete.matrixAt md = none := by
    rw [State.complete_matrixAt, State.invalidate_matrixAt, if_pos rfl]
  refine ⟨(s.invalidate md).complete, exec_of_effect_ok (i := .clr md) rfl, gone, ⟨rfl, rfl⟩,
    fun r hr => ?_, fun _ => rfl, ⟨rfl, rfl, rfl, rfl, rfl, rfl⟩, ?_⟩
  · rw [State.complete_matrixAt, State.invalidate_matrixAt, if_neg hr]
  · rw [readReg_mrShape, gone, mrShape_none]

/-- A rejected descriptor raises its error, and every command is the end of its checks. -/
theorem issue_next (s : State) (d : Descriptor) : ∃ t, s.issue d = .next t := by
  cases hd : decode d with
  | rejected e => exact ⟨_, issue_of_decode_rejected hd⟩
  | ok i =>
    rw [issue_of_decode_ok hd, exec_eq_finish]
    exact finish_next s _

/-- Settles O42. -/
theorem everyDescriptorIsExecutedToItsEnd : Obligations.EveryDescriptorIsExecutedToItsEnd :=
  issue_next

end Issuing

section Moves

/-- Settles O43, move by move. -/
theorem hostMovesDoWhatTheTableSays : Obligations.HostMovesDoWhatTheTableSays := by
  intro s rest wf
  refine ⟨fun a v hhost inside => ⟨{ s.takeMove rest with dmem := s.dmem.write a v }, ?_,
      Memory.read_write_same wf a v, fun b hb => Memory.read_write_other s.dmem v hb, rfl⟩,
    fun a hhost inside => ?_, fun w hhost => step_writeReg hhost,
    fun w hhost => step_writeReg hhost, fun w hhost => step_writeReg hhost,
    fun w hhost => step_writeReg hhost,
    fun r w hhost hr => step_writeReg_ignored hr hhost, fun r hhost => step_readReg hhost,
    fun c hhost => step_reset hhost⟩
  · exact (step_of_host_cons hhost).trans (if_pos inside)
  · exact (step_of_host_cons hhost).trans (if_pos inside)

/-- A write of a control register is answered, a command included. -/
theorem writeReg_next (s : State) (r : Nat) (w : Word) : ∃ t, s.writeReg r w = .next t := by
  unfold State.writeReg
  split
  · exact issue_next s _
  all_goals exact ⟨_, rfl⟩

/-- Settles O57: a move of the block is answered on every path; an access outside `DMEM` fails the one
test that can stop a step. -/
theorem stepStopsOnlyOutsideTheBlock : Obligations.StepStopsOnlyOutsideTheBlock := by
  intro s
  refine ⟨fun idle => by simp [step, idle], fun a rest hhost inBlock => ?_,
    fun a v rest hhost outside => (step_of_host_cons hhost).trans (if_neg (not_lt.mpr outside)),
    fun a rest hhost outside => (step_of_host_cons hhost).trans (if_neg (not_lt.mpr outside))⟩
  rw [step_of_host_cons hhost]
  cases a with
  | writeByte a v => exact ⟨_, if_pos (of_decide_eq_true inBlock)⟩
  | readByte a => exact ⟨_, if_pos (of_decide_eq_true inBlock)⟩
  | writeReg r w =>
    exact writeReg_next (s.takeMove rest) r w
  | readReg r => exact ⟨_, rfl⟩
  | reset c => exact ⟨_, rfl⟩

end Moves

section Status

/-- Of the mask of `ESTICKY`, bit 0 alone is clear (10_state.md R33). -/
theorem stickyRead_getLsbD (v : BitVec 8) {k : Nat} (hk : k < 8) :
    (stickyRead v).getLsbD k = (v.getLsbD k && decide (1 ≤ k)) := by
  have mask : ∀ k : Fin 8, (0xFE : BitVec 8).getLsbD k = decide (1 ≤ k.val) := by decide
  rw [stickyRead, BitVec.getLsbD_and, mask ⟨k, hk⟩]

/-- The four parts of `STATUS`, bit by bit (10_state.md R33). -/
theorem statusWord_getLsbD (err : BitVec 3) (esticky : BitVec 8) {b : Nat} (hb : b < 32) :
    (statusWord err esticky).getLsbD b =
      if b < 3 then err.getLsbD b
      else if 9 ≤ b ∧ b < 16 then esticky.getLsbD (b - 8)
      else false := by
  simp only [statusWord, BitVec.getLsbD_append]
  by_cases inErr : b < 3
  · rw [if_pos inErr, if_pos inErr]
  rw [if_neg inErr, if_neg inErr]
  by_cases inGap : b - 3 < 5
  · rw [if_pos inGap, if_neg (by omega)]
    exact BitVec.getLsbD_zero
  rw [if_neg inGap, Nat.sub_sub]
  by_cases inSticky : b - 8 < 8
  · rw [if_pos inSticky, stickyRead_getLsbD esticky inSticky]
    split
    case isTrue shown => rw [decide_eq_true (by omega), Bool.and_true]
    case isFalse hidden => rw [decide_eq_false (by omega), Bool.and_false]
  · rw [if_neg inSticky, if_neg (by omega)]
    exact BitVec.getLsbD_zero

/-- Settles O46: the layout is `statusWord`'s, and the write is of no register that stores. -/
theorem statusHasItsLayout : Obligations.StatusHasItsLayout :=
  ⟨fun s b hb => by rw [readReg_status, statusWord_getLsbD s.err s.esticky hb],
    fun s w rest hhost => step_writeReg_ignored (by decide) hhost⟩

end Status

end Sys2Proof.Machine
